-- ==== Sys2Proof/Word.lean ====
section
/-! DEFINITION. The word types of the block's ports: the command word, the 64-bit data ports and an N-bit
Register Value (10_state.md R25, R26; 00_scope.md R10). -/

namespace Sys2Proof

/-- The command word `CMD`, 24 bits (R50). -/
abbrev CmdWord := BitVec 24

/-- A value on one of the 64-bit ports `A`, `B`, `Y` (R8: `DATA_W` is 64). -/
abbrev PortWord := BitVec 64

/-- A Register Value of width `n`: an integer `v` with `0 <= v < 2^n` (R10). Bit 0 is the least significant (R9).
The shifts of `BitVec` by a `Nat` are the total shifts `shl_N` and `shr` of R11; `~~~`, `&&&`, `|||` and `^^^` are its
`not_N`, `and`, `or` and `xor`. -/
abbrev RegVal (n : Nat) := BitVec n

end Sys2Proof
end

