-- ==== Sys2Proof/Syntax.lean ====
section
/-! DEFINITION. The fourteen operations of the block as syntax (30_encoding.md R52; spec/opcode_table.json): one constructor per
row, with the width of the transaction and the operands of the command word the operation reads, in the order of the
assembler syntax R62. Fields an operation does not read are no operands (R56, log 6). -/

namespace Sys2Proof

/-- The register width N of a transaction: exactly these four values exist (R7, R53). -/
inductive Width where
  | n8
  | n16
  | n32
  | n64
deriving DecidableEq, Repr

/-- The operations. `start`, `len` and `idx` are the signed readings of their byte (R54 a, b; R55), `shift` is the
unsigned reading (R54 c). The data operands `reg`, `num` and `new_value` are on the ports `A` and `B` (R51). -/
inductive Instr where
  /-- `FMASK.N len, start`: forward mask (R71). -/
  | fmask (w : Width) (len start : Int)
  /-- `IMASK.N len, start`: inverse mask (R72). -/
  | imask (w : Width) (len start : Int)
  /-- `RDF.N a, start, len`: read field (R81). -/
  | rdf (w : Width) (start len : Int)
  /-- `WRF.N a, start, len, b`: write field (R82). -/
  | wrf (w : Width) (start len : Int)
  /-- `SETB.N a, idx`: set bit (R91). -/
  | setb (w : Width) (idx : Int)
  /-- `CLRB.N a, idx`: clear bit (R92). -/
  | clrb (w : Width) (idx : Int)
  /-- `TGLB.N a, idx`: toggle bit (R93). -/
  | tglb (w : Width) (idx : Int)
  /-- `TSTB.N a, idx`: test bit (R94). -/
  | tstb (w : Width) (idx : Int)
  /-- `ROL.N a, sh`: rotate left (R101). -/
  | rol (w : Width) (shift : Nat)
  /-- `ROR.N a, sh`: rotate right (R102). -/
  | ror (w : Width) (shift : Nat)
  /-- `POPC.N a`: population count (R110). -/
  | popc (w : Width)
  /-- `PAR.N a`: parity (R115). -/
  | par (w : Width)
  /-- `FSB.N a`: first set bit (R120). -/
  | fsb (w : Width)
  /-- `ISP2.N a`: is power of two (R125). -/
  | isp2 (w : Width)
deriving DecidableEq, Repr

end Sys2Proof
end

