-- ==== Sys2Proof/WellFormed.lean ====
section
/-! DEFINITION. Which instructions a command word can carry: every signed operand fits its two's complement byte and every
rotation amount its unsigned byte (30_encoding.md R54, R55). An operand in range may still be invalid at its width; that is an error of
the transaction, not of the syntax (R13, R133). -/

namespace Sys2Proof

/-- A signed operand that an 8-bit two's complement field can carry (R54 a and b, R55). -/
def signedByte (x : Int) : Bool := decide (-128 ≤ x) && decide (x ≤ 127)

/-- An unsigned operand that an 8-bit field can carry (R54 c). -/
def unsignedByte (x : Nat) : Bool := decide (x ≤ 255)

/-- The instruction's operands fit their fields. -/
def Instr.wellFormed : Instr → Bool
  | .fmask _ len start => signedByte len && signedByte start
  | .imask _ len start => signedByte len && signedByte start
  | .rdf _ start len => signedByte start && signedByte len
  | .wrf _ start len => signedByte start && signedByte len
  | .setb _ idx => signedByte idx
  | .clrb _ idx => signedByte idx
  | .tglb _ idx => signedByte idx
  | .tstb _ idx => signedByte idx
  | .rol _ shift => unsignedByte shift
  | .ror _ shift => unsignedByte shift
  | .popc _ => true
  | .par _ => true
  | .fsb _ => true
  | .isp2 _ => true

end Sys2Proof
end

