-- ==== Sys2Proof/Decode.lean ====
section
/-! DEFINITION. The command word: its five fields (30_encoding.md R50), the width it selects (R53), the signed reading of a byte
(R11, `s8`), the total decoder (R52, R57, R60), and the encoder of the canonical word (R60). -/

namespace Sys2Proof

/-- `CMD.OP`, bits 3:0 (R50). -/
def cmdOp (c : CmdWord) : BitVec 4 := c.extractLsb' 0 4

/-- `CMD.WSEL`, bits 5:4 (R50). -/
def cmdWsel (c : CmdWord) : BitVec 2 := c.extractLsb' 4 2

/-- `CMD.RSV`, bits 7:6 (R50). -/
def cmdRsv (c : CmdWord) : BitVec 2 := c.extractLsb' 6 2

/-- `CMD.POS`, bits 15:8 (R50). -/
def cmdPos (c : CmdWord) : BitVec 8 := c.extractLsb' 8 8

/-- `CMD.LEN`, bits 23:16 (R50). -/
def cmdLen (c : CmdWord) : BitVec 8 := c.extractLsb' 16 8

/-- `s8(x)`: `x` if `x < 128`, else `x - 256` (R11). -/
def s8 (x : BitVec 8) : Int := if x.toNat < 128 then (x.toNat : Int) else (x.toNat : Int) - 256

/-- The number N of bits of a width (R7). -/
def Width.bits : Width → Nat
  | .n8 => 8
  | .n16 => 16
  | .n32 => 32
  | .n64 => 64

/-- The width that `WSEL` selects: 0, 1, 2, 3 give 8, 16, 32, 64 (R53). -/
def widthOfWsel (wsel : BitVec 2) : Width :=
  match wsel.toNat with
  | 0 => .n8
  | 1 => .n16
  | 2 => .n32
  | _ => .n64

/-- The `WSEL` that selects a width (R53). -/
def Width.wsel : Width → BitVec 2
  | .n8 => 0#2
  | .n16 => 1#2
  | .n32 => 2#2
  | .n64 => 3#2

/-- Why a command word is illegal (R57). Both are answered with error 1. -/
inductive DecodeError where
  /-- `CMD.RSV` is not 00. -/
  | reservedBits
  /-- `CMD.OP` is 0xE or 0xF. -/
  | unassignedOpcode
deriving DecidableEq, Repr

/-- The operation that an opcode selects, at width `w`, with the bytes `pos` and `len` (R52, R54, R55). -/
def decodeOp (op : BitVec 4) (w : Width) (pos len : BitVec 8) : Except DecodeError Instr :=
  match op.toNat with
  | 0 => .ok (.fmask w (s8 len) (s8 pos))
  | 1 => .ok (.imask w (s8 len) (s8 pos))
  | 2 => .ok (.rdf w (s8 pos) (s8 len))
  | 3 => .ok (.wrf w (s8 pos) (s8 len))
  | 4 => .ok (.setb w (s8 pos))
  | 5 => .ok (.clrb w (s8 pos))
  | 6 => .ok (.tglb w (s8 pos))
  | 7 => .ok (.tstb w (s8 pos))
  | 8 => .ok (.rol w pos.toNat)
  | 9 => .ok (.ror w pos.toNat)
  | 10 => .ok (.popc w)
  | 11 => .ok (.par w)
  | 12 => .ok (.fsb w)
  | 13 => .ok (.isp2 w)
  | _ => .error .unassignedOpcode

/-- The decoder: total on all 2^24 words (R60). The reserved field is looked at first; which of the two reasons is named
makes no difference at the ports (R131). -/
def decode (c : CmdWord) : Except DecodeError Instr :=
  if cmdRsv c = 0#2 then decodeOp (cmdOp c) (widthOfWsel (cmdWsel c)) (cmdPos c) (cmdLen c)
  else .error .reservedBits

/-- The byte that carries a signed operand: its two's complement (R60). -/
def byteOf (x : Int) : BitVec 8 := BitVec.ofInt 8 x

/-- A command word from its fields, with `RSV` = 00 (R50, R60). -/
def packCmd (len pos : BitVec 8) (w : Width) (op : Nat) : CmdWord :=
  BitVec.ofNat 24 (len.toNat * 2 ^ 16 + pos.toNat * 2 ^ 8 + w.wsel.toNat * 2 ^ 4 + op)

/-- The canonical encoding: 0 in every field the operation does not read (R60). -/
def encode : Instr → CmdWord
  | .fmask w len start => packCmd (byteOf len) (byteOf start) w 0
  | .imask w len start => packCmd (byteOf len) (byteOf start) w 1
  | .rdf w start len => packCmd (byteOf len) (byteOf start) w 2
  | .wrf w start len => packCmd (byteOf len) (byteOf start) w 3
  | .setb w idx => packCmd 0 (byteOf idx) w 4
  | .clrb w idx => packCmd 0 (byteOf idx) w 5
  | .tglb w idx => packCmd 0 (byteOf idx) w 6
  | .tstb w idx => packCmd 0 (byteOf idx) w 7
  | .rol w shift => packCmd 0 (BitVec.ofNat 8 shift) w 8
  | .ror w shift => packCmd 0 (BitVec.ofNat 8 shift) w 9
  | .popc w => packCmd 0 0 w 10
  | .par w => packCmd 0 0 w 11
  | .fsb w => packCmd 0 0 w 12
  | .isp2 w => packCmd 0 0 w 13

/-- The command word whose low `nbits` bits are those of `w` and whose other bits are 0. -/
def tableWord (nbits w : Nat) : CmdWord := BitVec.ofNat 24 (w % 2 ^ nbits)

/-- What the decoder reads from a word of the opcode table: the command word is one 24-bit integer and no byte string (R41,
R50), so the table's numbering is the port's own (log 8). -/
def decodeTableWord (nbits w : Nat) : Option Instr :=
  match decode (tableWord nbits w) with
  | .ok i => some i
  | .error _ => none

end Sys2Proof
end

