-- ==== Sys2Proof/Config.lean ====
section
/-! DEFINITION. What an implementation fixes and what the spec leaves open. No parameter of the block is open (R8); the one
open point is what the six output ports show before the first transaction: "a model must not assume they are 0 and must
not assume `ERR = 0`" (70_reset_and_hazards.md R151). Each is a free value: a constant with no body (log 2). -/

namespace Sys2Proof

/-- What `Y` shows before the first transaction: a free value (R151, log 2). -/
opaque Config.undrivenY : BitVec 64

/-- What `S` shows before the first transaction: a free value (R151, log 2). -/
opaque Config.undrivenS : BitVec 8

/-- What `T` shows before the first transaction: a free value (R151, log 2). -/
opaque Config.undrivenT : Bool

/-- What `ERR` shows before the first transaction: a free value (R151, log 2). -/
opaque Config.undrivenErr : BitVec 3

/-- What `EINFO` shows before the first transaction: a free value (R151, log 2). -/
opaque Config.undrivenEinfo : BitVec 24

/-- What `WTAG` shows before the first transaction: a free value (R151, log 2). -/
opaque Config.undrivenWtag : BitVec 2

end Sys2Proof
end

