-- ==== Sys2Proof/Machine/State.lean ====
section
/-! DEFINITION. The ports of the block as plain data, and the reasons a step can stop. The block holds no architectural state
(10_state.md R20); what a step reads and drives are the three input ports (R25) and the six output ports (R26), and these
are what State holds (log 1). There is no memory (R40), no program counter (R22), no flag (R23) and no control register
(R24). -/

namespace Sys2Proof.Machine

/-- The input ports, driven by the host (R25). -/
structure Inputs where
  /-- The command word. -/
  cmd : CmdWord
  /-- The Register Value operated on, in bits N-1..0. -/
  a : PortWord
  /-- The new value of a field write, in bits N-1..0. -/
  b : PortWord
deriving DecidableEq, Repr

/-- The output ports, driven by the block in every transaction (R26). -/
structure Outputs where
  /-- A Register Value result, zero above bit N-1. -/
  y : PortWord
  /-- A scalar result, two's complement. -/
  s : BitVec 8
  /-- A boolean result: 1 is true. -/
  t : Bool
  /-- The error code; 0 is success. -/
  err : BitVec 3
  /-- On error a copy of the command word, else 0. -/
  einfo : CmdWord
  /-- The width tag, a copy of `CMD.WSEL`. -/
  wtag : BitVec 2
deriving DecidableEq, Repr

/-- The ports of one transaction: what the host drives now and what the block drove last. No step reads `outputs`
(R32). -/
structure State where
  inputs : Inputs
  outputs : Outputs
deriving DecidableEq, Repr

/-- Reasons the machine stops with a fault. There is none: every transaction ends by driving all six outputs and none hangs
or is stuck (R16, R31, R36), and an error transaction is a next state whose `ERR` holds the code (R134, log 4). So nobody
raises one, which is safe. -/
inductive Fault : Type
deriving DecidableEq, Repr

/-- Reasons a step is refused. -/
inductive Refusal where
  /-- Answered only by an arm of exec whose instruction has no meaning yet; no arm is left, so nobody raises it. Safe. -/
  | notModelled (mnemonic : String)
deriving DecidableEq, Repr

/-- The ports before the first transaction. The block has no reset and no state for it to set (R150). The output ports hold
free values, since none of them may be assumed (R151, log 2). The input ports hold 0, the model's own choice until the host
drives them (log 3). -/
def State.reset : State :=
  { inputs := { cmd := 0, a := 0, b := 0 }
    outputs := { y := Config.undrivenY, s := Config.undrivenS, t := Config.undrivenT,
                 err := Config.undrivenErr, einfo := Config.undrivenEinfo, wtag := Config.undrivenWtag } }

end Sys2Proof.Machine
end

