-- ==== Sys2Proof/Machine/Flags.lean ====
section
/-! DEFINITION. The status outputs. The block has no flags (10_state.md R23): what a status register would hold is on the ports
`ERR`, `EINFO` and `WTAG` of the one transaction (R24). Here are the causes of an error with their codes (60_exceptions.md
R130) and the width tag (R29). -/

namespace Sys2Proof.Machine

/-- The five causes of an error (R130). -/
inductive ErrCode where
  /-- The command word is illegal (R131). -/
  | illegalCmd
  /-- `idx < 0` or `idx >= N` (R132). -/
  | indexRange
  /-- `start < 0` (R133). -/
  | startNeg
  /-- `len < 0` (R133). -/
  | lenNeg
  /-- `start + len > N` (R133). -/
  | fieldOverrun
deriving DecidableEq, Repr

/-- The number of a cause on port `ERR` (R130). -/
def errNumber : ErrCode → BitVec 3
  | .illegalCmd => 1
  | .indexRange => 2
  | .startNeg => 3
  | .lenNeg => 4
  | .fieldOverrun => 5

/-- The number of success on port `ERR` (R130). -/
def errOk : BitVec 3 := 0

/-- The width tag of a transaction: always a copy of `CMD.WSEL` (R29). -/
def widthTag (p : Inputs) : BitVec 2 := cmdWsel p.cmd

end Sys2Proof.Machine
end

