-- ==== Sys2Proof/Machine/Operands.lean ====
section
/-! DEFINITION. Operands: the lanes of the data ports (10_state.md R27, R28), the checks of a Field Descriptor and of a Bit Index
(00_scope.md R13; 60_exceptions.md R132, R133), the reduced rotation amount (43_barrel_rotator.md R100), and the bit-level
helpers the operations share (00_scope.md R11, 40_mask_builder.md R70). -/

namespace Sys2Proof.Machine

/-- `a = A[N-1:0]` (R27). -/
def operandA (n : Nat) (p : Inputs) : RegVal n := p.a.setWidth n

/-- `b = B[N-1:0]` (R27). -/
def operandB (n : Nat) (p : Inputs) : RegVal n := p.b.setWidth n

/-- `zext_64(r)`: a Register Value on port `Y` (R28). -/
def zext64 {n : Nat} (r : RegVal n) : PortWord := r.setWidth 64

/-- The check of a Field Descriptor, in the order of R133 and R136; the sum is the exact integer sum (R13, D27). -/
def descriptorError (n : Nat) (start len : Int) : Option ErrCode :=
  if start < 0 then some .startNeg
  else if len < 0 then some .lenNeg
  else if start + len > (n : Int) then some .fieldOverrun
  else none

/-- The check of a Bit Index, which is never reduced modulo N (R90, R132). -/
def indexError (n : Nat) (idx : Int) : Option ErrCode :=
  if idx < 0 ∨ idx ≥ (n : Int) then some .indexRange else none

/-- `s = shift mod N` (R100). -/
def rotationAmount (n shift : Nat) : Nat := shift % n

/-- `fwd_N(len)`, the right-aligned mask, with the special case the source prescribes for `len = N` (R70). -/
def fwdMask (n len : Nat) : RegVal n :=
  if len = n then BitVec.allOnes n else (1#n <<< len) - 1#n

/-- `bit_N(i)`, the mask of one bit (R11). -/
def bitMask (n i : Nat) : RegVal n := 1#n <<< i

/-- `popcnt_N(v)`: the number of `i` in [0, N) with `v[i] = 1` (R11). -/
def popcnt {n : Nat} (v : RegVal n) : Nat := (List.range n).countP v.getLsbD

/-- The least `i` in [0, N) with `v[i] = 1`, scanning from bit 0 upward; none for 0 (R120, R122). -/
def leastSetBit {n : Nat} (v : RegVal n) : Option Nat := (List.range n).find? v.getLsbD

end Sys2Proof.Machine
end

