-- ==== Sys2Proof/Machine/Ops.lean ====
section
/-! DEFINITION. The operations every meaning is written with: what the host does to the input ports (10_state.md R33), driving
a result on one of the three result ports (R26, R30, R31), and raising an error, the block's one exception entry
(60_exceptions.md R134). There is no return from it to model: the next transaction is computed from its own inputs alone
(R140). -/

namespace Sys2Proof.Machine

/-- The host drives the three input ports (R25, R33). The outputs shown are still those of the last transaction. -/
def present (p : Inputs) (st : State) : State := { st with inputs := p }

/-- The host drives the command word alone. -/
def presentCmd (c : CmdWord) (st : State) : State := { st with inputs := { st.inputs with cmd := c } }

/-- The command word the transaction is given: the block fetches nothing (R22). -/
def presentedCmd (st : State) : CmdWord := st.inputs.cmd

/-- A successful transaction with the three result ports as given (R31). -/
def succeed (y : PortWord) (s : BitVec 8) (t : Bool) (st : State) : State :=
  { st with outputs := { y := y, s := s, t := t, err := errOk, einfo := 0, wtag := widthTag st.inputs } }

/-- A Y-class result: a Register Value, zero-extended (R28, R30). -/
def driveY {n : Nat} (r : RegVal n) (st : State) : State := succeed (zext64 r) 0 false st

/-- An S-class result: a scalar in 8 bits of two's complement (R26, R30, R120). -/
def driveS (k : Int) (st : State) : State := succeed 0 (BitVec.ofInt 8 k) false st

/-- A T-class result: a boolean (R26, R30). -/
def driveT (t : Bool) (st : State) : State := succeed 0 0 t st

/-- `raise Err(code)`: the result ports are forced to 0, `ERR` holds the code, `EINFO` the whole command word, and the
width tag is as always (R134, R135). -/
def raiseErr (e : ErrCode) (st : State) : State :=
  { st with outputs := { y := 0, s := 0, t := false, err := errNumber e, einfo := st.inputs.cmd,
                         wtag := widthTag st.inputs } }

/-- An illegal command word raises error 1, whichever of its two reasons holds (R57, R131). -/
def rejectCmd (e : DecodeError) (st : State) : State :=
  match e with
  | .reservedBits => raiseErr .illegalCmd st
  | .unassignedOpcode => raiseErr .illegalCmd st

/-- A checked operation: the first failing check is raised and nothing of the result is produced, else the result is driven
(R31, R138). -/
def checked (check : Option ErrCode) (st done : State) : Host.Outcome State Fault Refusal :=
  match check with
  | some e => .next (raiseErr e st)
  | none => .next done

end Sys2Proof.Machine
end

