-- ==== Sys2Proof/Machine/Analysis.lean ====
section
/-! DEFINITION. The analysis units: POPC (44_popcount_unit.md), PAR (45_parity_detector.md), FSB (46_lsb_locator.md) and ISP2
(47_power_of_two.md). None of them raises an error; a zero input is not one (R137). -/

namespace Sys2Proof.Machine

/-- The low bit of the count: true means odd (R115, R116). -/
def parity {n : Nat} (a : RegVal n) : Bool := popcnt a % 2 == 1

/-- The least set index, or the sentinel -1 at 0 (R120). -/
def firstSetBit {n : Nat} (a : RegVal n) : Int :=
  match leastSetBit a with
  | some i => (i : Int)
  | none => -1

/-- False at 0, else whether `a and (a - 1)` is 0 (R125). -/
def isPowerOfTwo {n : Nat} (a : RegVal n) : Bool :=
  if a = 0#n then false else a &&& (a - 1#n) == 0#n

/-- POPC (R110). -/
def execPopc (w : Width) (st : State) : Host.Outcome State Fault Refusal :=
  .next (driveS ((popcnt (operandA w.bits st.inputs) : Nat) : Int) st)

/-- PAR (R115). -/
def execPar (w : Width) (st : State) : Host.Outcome State Fault Refusal :=
  .next (driveT (parity (operandA w.bits st.inputs)) st)

/-- FSB (R120). -/
def execFsb (w : Width) (st : State) : Host.Outcome State Fault Refusal :=
  .next (driveS (firstSetBit (operandA w.bits st.inputs)) st)

/-- ISP2 (R125). -/
def execIsp2 (w : Width) (st : State) : Host.Outcome State Fault Refusal :=
  .next (driveT (isPowerOfTwo (operandA w.bits st.inputs)) st)

end Sys2Proof.Machine
end

