-- ==== Sys2Proof/Machine/MaskBuilder.lean ====
section
/-! DEFINITION. The Mask Builder unit: FMASK and IMASK (40_mask_builder.md). -/

namespace Sys2Proof.Machine

/-- `shl_N(fwd_N(len), start)` (R71). -/
def forwardMask (n len start : Nat) : RegVal n := fwdMask n len <<< start

/-- `not_N` of the forward mask (R72). -/
def inverseMask (n len start : Nat) : RegVal n := ~~~ forwardMask n len start

/-- FMASK (R71): the descriptor is checked, not clamped (R73). -/
def execFmask (w : Width) (len start : Int) (st : State) : Host.Outcome State Fault Refusal :=
  checked (descriptorError w.bits start len) st (driveY (forwardMask w.bits len.toNat start.toNat) st)

/-- IMASK (R72): the same check (R73). -/
def execImask (w : Width) (len start : Int) (st : State) : Host.Outcome State Fault Refusal :=
  checked (descriptorError w.bits start len) st (driveY (inverseMask w.bits len.toNat start.toNat) st)

end Sys2Proof.Machine
end

