-- ==== Sys2Proof/Machine/FieldAccessor.lean ====
section
/-! DEFINITION. The bit_field_accessor unit: RDF and WRF (41_bit_field_accessor.md). It depends on the Mask Builder (R3). -/

namespace Sys2Proof.Machine

/-- `shr(a, start) and fwd_N(len)` (R81). -/
def readField {n : Nat} (a : RegVal n) (start len : Nat) : RegVal n := (a >>> start) &&& fwdMask n len

/-- The field is cleared, the new value truncated to `len` bits, shifted into place and ORed in (R82). -/
def writeField {n : Nat} (a : RegVal n) (start len : Nat) (b : RegVal n) : RegVal n :=
  (a &&& inverseMask n len start) ||| ((b &&& fwdMask n len) <<< start)

/-- RDF (R81), with the check of R80. -/
def execRdf (w : Width) (start len : Int) (st : State) : Host.Outcome State Fault Refusal :=
  checked (descriptorError w.bits start len) st
    (driveY (readField (operandA w.bits st.inputs) start.toNat len.toNat) st)

/-- WRF (R82), with the check of R80. -/
def execWrf (w : Width) (start len : Int) (st : State) : Host.Outcome State Fault Refusal :=
  checked (descriptorError w.bits start len) st
    (driveY (writeField (operandA w.bits st.inputs) start.toNat len.toNat (operandB w.bits st.inputs)) st)

end Sys2Proof.Machine
end

