-- ==== Sys2Proof/Machine/Rotator.lean ====
section
/-! DEFINITION. The barrel_rotator unit: ROL and ROR (43_barrel_rotator.md). No amount is an error (R100, R137 d). -/

namespace Sys2Proof.Machine

/-- `a` when the reduced amount is 0, so that no shift by N is formed; else `shl_N(a, s) or shr(a, N - s)` (R101). -/
def rotateLeft {n : Nat} (a : RegVal n) (shift : Nat) : RegVal n :=
  let s := rotationAmount n shift
  if s = 0 then a else (a <<< s) ||| (a >>> (n - s))

/-- The mirror of `rotateLeft` (R102). -/
def rotateRight {n : Nat} (a : RegVal n) (shift : Nat) : RegVal n :=
  let s := rotationAmount n shift
  if s = 0 then a else (a >>> s) ||| (a <<< (n - s))

/-- ROL (R101). -/
def execRol (w : Width) (shift : Nat) (st : State) : Host.Outcome State Fault Refusal :=
  .next (driveY (rotateLeft (operandA w.bits st.inputs) shift) st)

/-- ROR (R102). -/
def execRor (w : Width) (shift : Nat) (st : State) : Host.Outcome State Fault Refusal :=
  .next (driveY (rotateRight (operandA w.bits st.inputs) shift) st)

end Sys2Proof.Machine
end

