-- ==== Sys2Proof/Machine/SingleBit.lean ====
section
/-! DEFINITION. The single-bit operations: SETB, CLRB, TGLB, TSTB (42_single_bit_ops.md), written on their own and not as fields of
length 1, since their error differs (R95, I6). -/

namespace Sys2Proof.Machine

/-- `a or bit_N(idx)` (R91). -/
def setBit {n : Nat} (a : RegVal n) (idx : Nat) : RegVal n := a ||| bitMask n idx

/-- `a and not_N(bit_N(idx))` (R92). -/
def clearBit {n : Nat} (a : RegVal n) (idx : Nat) : RegVal n := a &&& ~~~ bitMask n idx

/-- `a xor bit_N(idx)` (R93). -/
def toggleBit {n : Nat} (a : RegVal n) (idx : Nat) : RegVal n := a ^^^ bitMask n idx

/-- `shr(a, idx) and 1`, as a boolean (R94). -/
def isBitSet {n : Nat} (a : RegVal n) (idx : Nat) : Bool := (a >>> idx).getLsbD 0

/-- SETB (R91), with the check of R90. -/
def execSetb (w : Width) (idx : Int) (st : State) : Host.Outcome State Fault Refusal :=
  checked (indexError w.bits idx) st (driveY (setBit (operandA w.bits st.inputs) idx.toNat) st)

/-- CLRB (R92), with the check of R90. -/
def execClrb (w : Width) (idx : Int) (st : State) : Host.Outcome State Fault Refusal :=
  checked (indexError w.bits idx) st (driveY (clearBit (operandA w.bits st.inputs) idx.toNat) st)

/-- TGLB (R93), with the check of R90. -/
def execTglb (w : Width) (idx : Int) (st : State) : Host.Outcome State Fault Refusal :=
  checked (indexError w.bits idx) st (driveY (toggleBit (operandA w.bits st.inputs) idx.toNat) st)

/-- TSTB (R94), with the check of R90. -/
def execTstb (w : Width) (idx : Int) (st : State) : Host.Outcome State Fault Refusal :=
  checked (indexError w.bits idx) st (driveT (isBitSet (operandA w.bits st.inputs) idx.toNat) st)

end Sys2Proof.Machine
end

