-- ==== Sys2Proof/Machine/Dispatch.lean ====
section
/-! DEFINITION. The case split over the operations, one arm per constructor (10_state.md R31). -/

namespace Sys2Proof.Machine

def exec (i : Instr) (s : State) : Host.Outcome State Fault Refusal :=
  match i with
  | .fmask w len start => Sys2Proof.Machine.execFmask w len start s
  | .imask w len start => Sys2Proof.Machine.execImask w len start s
  | .rdf w start len => Sys2Proof.Machine.execRdf w start len s
  | .wrf w start len => Sys2Proof.Machine.execWrf w start len s
  | .setb w idx => Sys2Proof.Machine.execSetb w idx s
  | .clrb w idx => Sys2Proof.Machine.execClrb w idx s
  | .tglb w idx => Sys2Proof.Machine.execTglb w idx s
  | .tstb w idx => Sys2Proof.Machine.execTstb w idx s
  | .rol w shift => Sys2Proof.Machine.execRol w shift s
  | .ror w shift => Sys2Proof.Machine.execRor w shift s
  | .popc w => Sys2Proof.Machine.execPopc w s
  | .par w => Sys2Proof.Machine.execPar w s
  | .fsb w => Sys2Proof.Machine.execFsb w s
  | .isp2 w => Sys2Proof.Machine.execIsp2 w s

end Sys2Proof.Machine
end

