-- ==== Sys2Proof/Machine/Step.lean ====
section
/-! DEFINITION. The one step of the one agent: the transaction on the ports as the host drives them (10_state.md R21, R31). -/

namespace Sys2Proof.Machine

/-- The transaction (R31): the command word's legality first, then the operation. The input ports stay as the host drives
them, so a further step is the same transaction again, with the same outputs (R32, R44). -/
def step (s : State) : Host.Outcome State Fault Refusal :=
  match decode (presentedCmd s) with
  | .ok i => exec i s
  | .error e => .next (rejectCmd e s)

/-- The host presents the word as the command of the next transaction; `A` and `B` stay (R22, R33, log 8). -/
def State.withFetchWord (s : State) (nbits w : Nat) : State := presentCmd (tableWord nbits w) s

end Sys2Proof.Machine
end

