-- ==== Sys2Proof/Machine/HostRun.lean ====
section
/-! DEFINITION. The host's side of the interface (10_state.md R33, R36): issuing one transaction, issuing a finite sequence of
them, and reading a result the way a host must, `ERR` first and then only the result port of the operation it issued
(R30, R33). -/

namespace Sys2Proof.Machine

/-- The host issues one transaction: it drives all input ports and the block takes its step (R33). -/
def transact (p : Inputs) (st : State) : Host.Outcome State Fault Refusal := step (present p st)

/-- A run: a finite host-chosen sequence of transactions (R36). It gives the outputs of each, in order, and the ports at
the end; none if a step stopped. -/
def runTransactions : List Inputs → State → Option (List Outputs × State)
  | [], st => some ([], st)
  | p :: ps, st =>
    match transact p st with
    | .next st' =>
      match runTransactions ps st' with
      | some (os, last) => some (st'.outputs :: os, last)
      | none => none
    | .fault _ => none
    | .refused _ => none

/-- The three kinds of results (R30). -/
inductive ResultClass where
  /-- A Register Value on `Y`. -/
  | yClass
  /-- A scalar on `S`. -/
  | sClass
  /-- A boolean on `T`. -/
  | tClass
deriving DecidableEq, Repr

/-- The port on which an operation delivers its result (R15, R30). -/
def resultClass : Instr → ResultClass
  | .fmask _ _ _ => .yClass
  | .imask _ _ _ => .yClass
  | .rdf _ _ _ => .yClass
  | .wrf _ _ _ => .yClass
  | .setb _ _ => .yClass
  | .clrb _ _ => .yClass
  | .tglb _ _ => .yClass
  | .tstb _ _ => .tClass
  | .rol _ _ => .yClass
  | .ror _ _ => .yClass
  | .popc _ => .sClass
  | .par _ => .tClass
  | .fsb _ => .sClass
  | .isp2 _ => .tClass

/-- What a host has after consuming the outputs of a transaction (R33). -/
inductive HostView where
  /-- The transaction failed: the code and the error information, and no result value (R134, I2). -/
  | failed (code : BitVec 3) (info : CmdWord)
  /-- A Register Value with its width tag (R29). -/
  | register (w : Width) (v : PortWord)
  /-- A scalar, `s8(S)` (R120). -/
  | scalar (k : Int)
  /-- A boolean. -/
  | truth (t : Bool)
deriving DecidableEq, Repr

/-- The host checks `ERR = 0` first, then reads only the result port of the operation, at the width `8 << WTAG` (R33). -/
def hostReads (c : ResultClass) (o : Outputs) : HostView :=
  if o.err = errOk then
    match c with
    | .yClass => .register (widthOfWsel o.wtag) o.y
    | .sClass => .scalar (s8 o.s)
    | .tClass => .truth o.t
  else .failed o.err o.einfo

end Sys2Proof.Machine
end

