-- ==== Sys2Proof/Machine/Reference.lean ====
section
/-! DEFINITION. The whole block as one function on integers: the pseudocode of the transaction (10_state.md R31, 00_scope.md R16)
with each operation in the arithmetic form its rule gives beside the bit-level one (R71 to R125, "as an integer").
No step uses it: it is the clear form that the machine is claimed equal to. It reads fields by division and remainder and
shares no decoder, mask, check or port operation with the machine. -/

namespace Sys2Proof.Machine.Reference

/-- `s8(x)` on an integer byte (R11). -/
def signed (x : Nat) : Int := if x < 128 then (x : Int) else (x : Int) - 256

/-- Bit `i` of `v`: `floor(v / 2^i) mod 2` (R11). -/
def bit (v i : Nat) : Nat := v / 2 ^ i % 2

/-- Outputs of a successful transaction. -/
def ok (wsel y s : Nat) (t : Bool) : Outputs :=
  { y := BitVec.ofNat 64 y, s := BitVec.ofNat 8 s, t := t, err := 0, einfo := 0, wtag := BitVec.ofNat 2 wsel }

/-- Outputs of a failed transaction (R134). -/
def fail (cmd wsel code : Nat) : Outputs :=
  { y := 0, s := 0, t := false, err := BitVec.ofNat 3 code, einfo := BitVec.ofNat 24 cmd, wtag := BitVec.ofNat 2 wsel }

/-- The forward mask as an integer (R71). -/
def forward (len start : Nat) : Nat := (2 ^ len - 1) * 2 ^ start

/-- The field as an integer (R81). -/
def field (a start len : Nat) : Nat := a / 2 ^ start % 2 ^ len

/-- The number with its field replaced (R82): the old field is taken off and the truncated new value put in its place. -/
def replaced (a start len b : Nat) : Nat := a - field a start len * 2 ^ start + b % 2 ^ len * 2 ^ start

/-- The top `s` bits become the bottom `s` bits (R101). -/
def rotatedLeft (n a s : Nat) : Nat := a * 2 ^ s % 2 ^ n + a / 2 ^ (n - s)

/-- The bottom `s` bits become the top `s` bits (R102). -/
def rotatedRight (n a s : Nat) : Nat := a / 2 ^ s + a % 2 ^ s * 2 ^ (n - s)

/-- BBFL's reference algorithm: `k` times, add the low bit and shift right by one (R110). -/
def countOnes : Nat → Nat → Nat
  | 0, _ => 0
  | k + 1, x => x % 2 + countOnes k (x / 2)

/-- The exclusive or of the `k` low bits (R115, R117). -/
def foldParity : Nat → Nat → Bool
  | 0, _ => false
  | k + 1, x => (x % 2 == 1) ^^ foldParity k (x / 2)

/-- The number of zero bits below the first one-bit among the `k` low bits; `k` if there is none. -/
def zerosBelow : Nat → Nat → Nat
  | 0, _ => 0
  | k + 1, x => if x % 2 = 1 then 0 else 1 + zerosBelow k (x / 2)

/-- `a` is `2^k` for some `k` in 0..N-1 (R125). -/
def power (n a : Nat) : Bool := (List.range n).any fun k => a == 2 ^ k

/-- The code of the first failing precondition of a Field Descriptor, 0 if it is valid (R133). -/
def descriptorCode (n : Nat) (start len : Int) : Nat :=
  if start < 0 then 3 else if len < 0 then 4 else if start + len > (n : Int) then 5 else 0

/-- The code of a Bit Index, 0 if it is valid (R132). -/
def indexCode (n : Nat) (idx : Int) : Nat := if idx < 0 ∨ idx ≥ (n : Int) then 2 else 0

/-- The result ports `Y`, `S`, `T` of operation `op` on valid operands, in the order of R52. -/
def results (op n a b pos len : Nat) : Nat × Nat × Bool :=
  match op with
  | 0 => (forward len pos, 0, false)
  | 1 => (2 ^ n - 1 - forward len pos, 0, false)
  | 2 => (field a pos len, 0, false)
  | 3 => (replaced a pos len b, 0, false)
  | 4 => (if bit a pos = 1 then a else a + 2 ^ pos, 0, false)
  | 5 => (if bit a pos = 1 then a - 2 ^ pos else a, 0, false)
  | 6 => (if bit a pos = 1 then a - 2 ^ pos else a + 2 ^ pos, 0, false)
  | 7 => (0, 0, bit a pos == 1)
  | 8 => (rotatedLeft n a (pos % n), 0, false)
  | 9 => (rotatedRight n a (pos % n), 0, false)
  | 10 => (0, countOnes n a, false)
  | 11 => (0, 0, foldParity n a)
  | 12 => (0, if a = 0 then 255 else zerosBelow n a, false)
  | _ => (0, 0, power n a)

/-- The code that the operand checks of operation `op` report, 0 for none (R133, R132, R137 d). -/
def operandCode (op n pos len : Nat) : Nat :=
  if op ≤ 3 then descriptorCode n (signed pos) (signed len)
  else if op ≤ 7 then indexCode n (signed pos)
  else 0

/-- The block (R16): the six outputs as a function of the three inputs. -/
def block (p : Inputs) : Outputs :=
  let cmd := p.cmd.toNat
  let op := cmd % 16
  let wsel := cmd / 16 % 4
  let rsv := cmd / 64 % 4
  let pos := cmd / 256 % 256
  let len := cmd / 65536
  let n := 8 * 2 ^ wsel
  let a := p.a.toNat % 2 ^ n
  let b := p.b.toNat % 2 ^ n
  if rsv ≠ 0 ∨ op = 14 ∨ op = 15 then fail cmd wsel 1
  else
    let code := operandCode op n pos len
    if code = 0 then
      let r := results op n a b pos len
      ok wsel r.1 r.2.1 r.2.2
    else fail cmd wsel code

end Sys2Proof.Machine.Reference
end

