-- ==== Sys2Proof/Safety.lean ====
section
/-! DEFINITION. The words the claims are stated in: what the outputs of a successful and of a failed transaction are (10_state.md
R26, R30; 60_exceptions.md R134), which operands are valid (00_scope.md R13), what a set of outputs may look like at all,
and when an operation delivers a result on given data operands from every state. Nothing here is used by a step. -/

namespace Sys2Proof.Safety

open Sys2Proof.Machine

/-- A success with a Register Value on `Y`. -/
def okY (p : Inputs) (y : PortWord) : Outputs :=
  { y := y, s := 0, t := false, err := 0, einfo := 0, wtag := p.cmd.extractLsb' 4 2 }

/-- A success with a scalar on `S`. -/
def okS (p : Inputs) (s : BitVec 8) : Outputs :=
  { y := 0, s := s, t := false, err := 0, einfo := 0, wtag := p.cmd.extractLsb' 4 2 }

/-- A success with a boolean on `T`. -/
def okT (p : Inputs) (t : Bool) : Outputs :=
  { y := 0, s := 0, t := t, err := 0, einfo := 0, wtag := p.cmd.extractLsb' 4 2 }

/-- A failure with the code: the result ports are 0 and `EINFO` is the command word (R134, R135). -/
def failed (p : Inputs) (code : BitVec 3) : Outputs :=
  { y := 0, s := 0, t := false, err := code, einfo := p.cmd, wtag := p.cmd.extractLsb' 4 2 }

/-- A Field Descriptor is valid at width `n` (R13): the sum is exact. -/
abbrev ValidField (n : Nat) (start len : Int) : Prop := 0 ≤ start ∧ 0 ≤ len ∧ start + len ≤ (n : Int)

/-- A Bit Index is valid at width `n` (R13). -/
abbrev ValidIndex (n : Nat) (idx : Int) : Prop := 0 ≤ idx ∧ idx < (n : Int)

/-- The operation delivers `y` on `Y` from every state whose data ports hold `a` and `b`: it completes, the inputs stay and
no other output carries anything. -/
def DeliversY (i : Instr) (a b y : PortWord) : Prop :=
  ∀ s : State, s.inputs.a = a → s.inputs.b = b → exec i s = .next { s with outputs := okY s.inputs y }

/-- The operation delivers `k` on `S`. -/
def DeliversS (i : Instr) (a b : PortWord) (k : BitVec 8) : Prop :=
  ∀ s : State, s.inputs.a = a → s.inputs.b = b → exec i s = .next { s with outputs := okS s.inputs k }

/-- The operation delivers `t` on `T`. -/
def DeliversT (i : Instr) (a b : PortWord) (t : Bool) : Prop :=
  ∀ s : State, s.inputs.a = a → s.inputs.b = b → exec i s = .next { s with outputs := okT s.inputs t }

/-- The operation fails with the code, whatever the data ports hold. -/
def FailsWith (i : Instr) (code : BitVec 3) : Prop :=
  ∀ s : State, exec i s = .next { s with outputs := failed s.inputs code }

/-- The outputs a transaction may show (R26 to R30, R130, R134, R135): the tag is `WSEL`; a code is 0 to 5; on failure the
result ports are 0 and `EINFO` is the non-zero command word; on success `EINFO` is 0, the word is legal, `Y` fits the
width, `S` is the sentinel or at most 64, and at most one result port is not 0. -/
def LegalOutputs (p : Inputs) (o : Outputs) : Prop :=
  o.wtag = p.cmd.extractLsb' 4 2 ∧
  o.err.toNat ≤ 5 ∧
  (o.err ≠ 0 → o.y = 0 ∧ o.s = 0 ∧ o.t = false ∧ o.einfo = p.cmd ∧ o.einfo ≠ 0) ∧
  (o.err = 0 → o.einfo = 0 ∧ p.cmd.extractLsb' 6 2 = 0#2 ∧ (p.cmd.extractLsb' 0 4).toNat < 14) ∧
  o.y.toNat < 2 ^ (8 * 2 ^ o.wtag.toNat) ∧
  (o.s = 0xFF#8 ∨ o.s.toNat ≤ 64) ∧
  (o.y = 0 ∨ (o.s = 0 ∧ o.t = false)) ∧ (o.s = 0 ∨ o.t = false)

/-- A word with opcode `op` and reserved bits 00 is read as `mk` of its width, its `POS` byte and its `LEN` byte (R50, R52). -/
def EncodedAs (op : BitVec 4) (mk : Width → BitVec 8 → BitVec 8 → Instr) : Prop :=
  ∀ c : CmdWord, c.extractLsb' 6 2 = 0#2 → c.extractLsb' 0 4 = op →
    decode c = .ok (mk (widthOfWsel (c.extractLsb' 4 2)) (c.extractLsb' 8 8) (c.extractLsb' 16 8))

/-- A command word is illegal (R57). -/
abbrev IllegalWord (c : CmdWord) : Prop := c.extractLsb' 6 2 ≠ 0#2 ∨ c.extractLsb' 0 4 = 14#4 ∨ c.extractLsb' 0 4 = 15#4

/-- The code of the first failing precondition of an invalid Field Descriptor (R133, R136). -/
abbrev fieldCode (start len : Int) : BitVec 3 := if start < 0 then 3 else if len < 0 then 4 else 5

/-- The width N of a command word, `8 << WSEL` (R53). -/
abbrev cmdBits (c : CmdWord) : Nat := 8 <<< (c.extractLsb' 4 2).toNat

/-- The bits of an integer below `n`, added up: its population count (R11, R110). -/
abbrev bitSum (n v : Nat) : Nat := ∑ k ∈ Finset.range n, v / 2 ^ k % 2

/-- The codes that an operation may report once its word is legal, 0 among them (R147). -/
def codesOf : Instr → List (BitVec 3)
  | .fmask _ _ _ => [0, 3, 4, 5]
  | .imask _ _ _ => [0, 3, 4, 5]
  | .rdf _ _ _ => [0, 3, 4, 5]
  | .wrf _ _ _ => [0, 3, 4, 5]
  | .setb _ _ => [0, 2]
  | .clrb _ _ => [0, 2]
  | .tglb _ _ => [0, 2]
  | .tstb _ _ => [0, 2]
  | .rol _ _ => [0]
  | .ror _ _ => [0]
  | .popc _ => [0]
  | .par _ => [0]
  | .fsb _ => [0]
  | .isp2 _ => [0]

/-- Two command words select the same operation at the same width and agree on the fields that operation reads: `POS` for
opcodes 0 to 9, `LEN` for opcodes 0 to 3 (R52, R56). -/
def SameReadFields (c c' : CmdWord) : Prop :=
  c.extractLsb' 0 8 = c'.extractLsb' 0 8 ∧
  ((c.extractLsb' 0 4).toNat ≤ 9 → c.extractLsb' 8 8 = c'.extractLsb' 8 8) ∧
  ((c.extractLsb' 0 4).toNat ≤ 3 → c.extractLsb' 16 8 = c'.extractLsb' 16 8)

/-- The inputs agree on everything the operation reads: its command fields, `A` for opcodes 2 to 15 and `B` for opcode 3
(R25, R52, R56). -/
def SameReadInputs (p p' : Inputs) : Prop :=
  SameReadFields p.cmd p'.cmd ∧
  (2 ≤ (p.cmd.extractLsb' 0 4).toNat → p.a = p'.a) ∧
  ((p.cmd.extractLsb' 0 4).toNat = 3 → p.b = p'.b)

end Sys2Proof.Safety
end

