-- ==== Sys2Proof/Certificates/Slice0/Obligations.lean ====
section
/-! DEFINITION. The statements for the provers, from the numbered rules of spec/, file by file. The words they use are in
Sys2Proof/Safety.lean. An equation `… = .next { s with outputs := … }` says the whole next state: it is the completion of the
instruction, its result and its frame at once (the input ports stay, every output other than the result port is 0). -/

open Sys2Proof Sys2Proof.Machine Sys2Proof.Safety

/-! ## The command word (30_encoding.md) -/

/-- R50: the five fields make up the word, as an integer. -/
def Obligations.CommandWordIsItsFields : Prop :=
  ∀ c : CmdWord, c.toNat = (cmdLen c).toNat * 2 ^ 16 + (cmdPos c).toNat * 2 ^ 8 + (cmdRsv c).toNat * 2 ^ 6
    + (cmdWsel c).toNat * 2 ^ 4 + (cmdOp c).toNat

/-- R53: the width is `8 << WSEL`, all four values are legal and the four widths are exactly those reached; the width is that of
every operand (only the low N bits of `A` and `B` count) and of the result, whatever an earlier transaction left. -/
def Obligations.WselSelectsTheWidth : Prop :=
  (∀ x : BitVec 2, (widthOfWsel x).bits = 8 <<< x.toNat) ∧
  (widthOfWsel 0).bits = 8 ∧ (widthOfWsel 1).bits = 16 ∧ (widthOfWsel 2).bits = 32 ∧ (widthOfWsel 3).bits = 64 ∧
  (∀ w : Width, ∃ x : BitVec 2, widthOfWsel x = w) ∧
  (∀ c c' : CmdWord, c.extractLsb' 0 4 = c'.extractLsb' 0 4 → c.extractLsb' 6 2 = c'.extractLsb' 6 2 →
    ((∃ i, decode c = .ok i) ↔ ∃ i, decode c' = .ok i)) ∧
  (∀ s s' : State, s.inputs.cmd = s'.inputs.cmd →
    s.inputs.a.toNat % 2 ^ cmdBits s.inputs.cmd = s'.inputs.a.toNat % 2 ^ cmdBits s.inputs.cmd →
    s.inputs.b.toNat % 2 ^ cmdBits s.inputs.cmd = s'.inputs.b.toNat % 2 ^ cmdBits s.inputs.cmd →
    ∃ t t', step s = .next t ∧ step s' = .next t' ∧ t.outputs = t'.outputs ∧
      t.outputs.y.toNat < 2 ^ cmdBits s.inputs.cmd)

/-- R54, R55: `POS` is read signed by opcodes 0 to 7, unsigned by 8 and 9 and by no other, `LEN` signed by opcodes 0 to 3 and
by no other; a signed byte is in -128..127 and carries each of these; a rotation amount is the low log2(N) bits of `POS`. -/
def Obligations.FieldsAreReadByOpcode : Prop :=
  (∀ x : Int, -128 ≤ x → x ≤ 127 → (byteOf x).toInt = x) ∧
  (∀ x : BitVec 8, -128 ≤ x.toInt ∧ x.toInt ≤ 127) ∧
  EncodedAs 0 (fun w pos len => .fmask w len.toInt pos.toInt) ∧
  EncodedAs 1 (fun w pos len => .imask w len.toInt pos.toInt) ∧
  EncodedAs 2 (fun w pos len => .rdf w pos.toInt len.toInt) ∧
  EncodedAs 3 (fun w pos len => .wrf w pos.toInt len.toInt) ∧
  EncodedAs 4 (fun w pos _ => .setb w pos.toInt) ∧
  EncodedAs 5 (fun w pos _ => .clrb w pos.toInt) ∧
  EncodedAs 6 (fun w pos _ => .tglb w pos.toInt) ∧
  EncodedAs 7 (fun w pos _ => .tstb w pos.toInt) ∧
  EncodedAs 8 (fun w pos _ => .rol w pos.toNat) ∧
  EncodedAs 9 (fun w pos _ => .ror w pos.toNat) ∧
  EncodedAs 10 (fun w _ _ => .popc w) ∧
  EncodedAs 11 (fun w _ _ => .par w) ∧
  EncodedAs 12 (fun w _ _ => .fsb w) ∧
  EncodedAs 13 (fun w _ _ => .isp2 w) ∧
  (∀ pos : BitVec 8, ∀ k, k < 4 → pos.toNat % (8 <<< k) = (pos.extractLsb' 0 (3 + k)).toNat)

/-- R57: a word is illegal exactly when RSV is not 0 or OP is 0xE or 0xF; an illegal word gives error 1 whatever else the
ports hold; 3,670,016 words are legal and 13,107,200 are not; a legal word may still raise an operand error. -/
def Obligations.IllegalWordsAreCounted : Prop :=
  (∀ c : CmdWord, (∃ e, decode c = .error e) ↔ IllegalWord c) ∧
  (∀ s : State, IllegalWord s.inputs.cmd → step s = .next { s with outputs := failed s.inputs 1 }) ∧
  ((Finset.range (2 ^ 24)).filter fun n => (decode (BitVec.ofNat 24 n)).isOk = true).card = 3670016 ∧
  ((Finset.range (2 ^ 24)).filter fun n => (decode (BitVec.ofNat 24 n)).isOk = false).card = 13107200 ∧
  (∃ s t, ¬ IllegalWord s.inputs.cmd ∧ step s = .next t ∧ t.outputs.err = 2)

/-- R58, which the spec marks as derived from R52 and R57: every word is a defined operation or the illegal-command error; the all-zero word is `FMASK.8 0, 0` and gives 0; the
all-ones word is illegal, with the width tag 3. -/
def Obligations.EveryWordIsDefined : Prop :=
  (∀ s : State, (∃ i, decode s.inputs.cmd = .ok i ∧ step s = exec i s) ∨
    step s = .next { s with outputs := failed s.inputs 1 }) ∧
  decode 0x000000#24 = .ok (.fmask .n8 0 0) ∧
  (∀ s : State, s.inputs.cmd = 0x000000#24 → step s = .next { s with outputs := okY s.inputs 0 }) ∧
  (∀ s : State, s.inputs.cmd = 0xFFFFFF#24 → ∃ t, step s = .next t ∧ t.inputs = s.inputs ∧
    t.outputs = { y := 0, s := 0, t := false, err := 1, einfo := 0xFFFFFF#24, wtag := 3 })

/-- R60: decoding and encoding agree. Decoding inverts encoding on every well-formed instruction; the canonical encoding of
what a word decodes to is that word with 0 in every field the operation does not read; the worked example. -/
def Obligations.DecodeEncodeAgree : Prop :=
  (∀ i : Instr, i.wellFormed = true → decode (encode i) = .ok i) ∧
  (∀ (c : CmdWord) (i : Instr), decode c = .ok i → i.wellFormed = true ∧
    encode i = if (c.extractLsb' 0 4).toNat ≤ 3 then c
      else if (c.extractLsb' 0 4).toNat ≤ 9 then c &&& 0x00FFFF#24 else c &&& 0x0000FF#24) ∧
  (∀ c : CmdWord, (∃ e, decode c = .error e) ↔ IllegalWord c) ∧
  (∀ x : Int, -128 ≤ x → x < 0 → ((byteOf x).toNat : Int) = x + 256) ∧
  encode (.rdf .n16 4 5) = 0x050412#24

/-- R61: a word matches row `k` of the opcode table, mask 0x0000CF and match `k`, exactly when it decodes to an operation whose
canonical word matches that row; a word that matches no row is illegal. -/
def Obligations.OpcodeTableRowsSelect : Prop :=
  (∀ (c : CmdWord) (k : Nat), k < 14 →
    (c &&& 0x0000CF#24 = BitVec.ofNat 24 k ↔ ∃ i, decode c = .ok i ∧ encode i &&& 0x0000CF#24 = BitVec.ofNat 24 k)) ∧
  (∀ c : CmdWord, (∀ k, k < 14 → c &&& 0x0000CF#24 ≠ BitVec.ofNat 24 k) ↔ IllegalWord c)

/-- Words written out by the spec beside its examples decode to the operation they stand for. -/
def Obligations.ExampleWordsDecode : Prop :=
  decode 0x050410#24 = .ok (.fmask .n16 5 4) ∧ decode 0x050411#24 = .ok (.imask .n16 5 4) ∧
  decode 0x050412#24 = .ok (.rdf .n16 4 5) ∧ decode 0x050413#24 = .ok (.wrf .n16 4 5) ∧
  decode 0x000104#24 = .ok (.setb .n8 1) ∧ decode 0x00FF15#24 = .ok (.clrb .n16 (-1)) ∧
  decode 0x000706#24 = .ok (.tglb .n8 7) ∧ decode 0x003F37#24 = .ok (.tstb .n64 63) ∧
  decode 0x000438#24 = .ok (.rol .n64 4) ∧ decode 0x00FF39#24 = .ok (.ror .n64 255) ∧
  decode 0x34123A#24 = .ok (.popc .n64) ∧ decode 0x00003B#24 = .ok (.par .n64) ∧
  decode 0x00001C#24 = .ok (.fsb .n16) ∧ decode 0x00000D#24 = .ok (.isp2 .n8)

/-- R56: fields and ports an operation does not read change no output but `EINFO`, and that only on an error. -/
def Obligations.UnreadInputsAreIgnored : Prop :=
  ∀ s s' : State, SameReadInputs s.inputs s'.inputs →
    ∃ t t', step s = .next t ∧ step s' = .next t' ∧
      { t'.outputs with einfo := t.outputs.einfo } = t.outputs ∧ (t.outputs.err = 0 → t'.outputs = t.outputs) ∧
      (t.outputs.err ≠ 0 → t.outputs.einfo = s.inputs.cmd ∧ t'.outputs.einfo = s'.inputs.cmd)

/-! ## The transaction and the ports (10_state.md, 20_memory.md, 70_reset_and_hazards.md) -/

/-- R31: a step runs the decoded instruction, and nothing around it: no pc moves, the input ports are what the host drives. -/
def Obligations.StepRunsTheDecodedInstruction : Prop :=
  ∀ (s : State) (i : Instr), decode s.inputs.cmd = .ok i → step s = exec i s

/-- The model's convention of log 8: a command word presented to the machine after reset is what its first step runs. -/
def Obligations.PresentedWordRunsAfterReset : Prop :=
  ∀ (w : Nat) (i : Instr), decodeTableWord 24 w = some i →
    ∃ t, step (State.reset.withFetchWord 24 w) = .next t ∧ exec i (State.reset.withFetchWord 24 w) = .next t ∧
      t.inputs.cmd = BitVec.ofNat 24 w

/-- R16, R31: the machine is the block function written on integers (log 13: partly by inference from the rules), on every input
and from every state. -/
def Obligations.StepIsTheBlockFunction : Prop :=
  ∀ s : State, step s = .next { s with outputs := Reference.block s.inputs }

/-- R47 (and R32, which the spec marks as derived from R20 and R31): there is one function from inputs to outputs such that every transaction, and every transaction of every run in
any order, from any state, gives that function of its own inputs. -/
def Obligations.TransactionsAreIndependent : Prop :=
  ∃ f : Inputs → Outputs,
    (∀ p s, transact p s = .next { inputs := p, outputs := f p }) ∧
    (∀ ps s, ∃ last, runTransactions ps s = some (ps.map f, last)) ∧
    (∀ ps qs s s', ps.Perm qs → ∃ os os' last last', runTransactions ps s = some (os, last) ∧
      runTransactions qs s' = some (os', last') ∧ (ps.zip os).Perm (qs.zip os'))

/-- The outputs a transaction leaves are legal, from every state: an invariant of every step, established by it as well, whatever
the ports showed before (so also by the first step after reset). -/
def Obligations.EveryStepLeavesLegalOutputs : Prop :=
  ∀ s : State, ∃ t, step s = .next t ∧ t.inputs = s.inputs ∧ LegalOutputs t.inputs t.outputs

/-- R153: the first transaction may be any command word and is handled like any other. -/
def Obligations.FirstTransactionIsLikeAnyOther : Prop :=
  ∀ (p : Inputs) (s : State), transact p State.reset = transact p s ∧ ∃ t, transact p s = .next t ∧ LegalOutputs p t.outputs

/-- R27: bits 63..N of `A` and `B` never change any output; the example. -/
def Obligations.UpperInputLanesAreIgnored : Prop :=
  (∀ s s' : State, s.inputs.cmd = s'.inputs.cmd →
    s.inputs.a.toNat % 2 ^ cmdBits s.inputs.cmd = s'.inputs.a.toNat % 2 ^ cmdBits s.inputs.cmd →
    s.inputs.b.toNat % 2 ^ cmdBits s.inputs.cmd = s'.inputs.b.toNat % 2 ^ cmdBits s.inputs.cmd →
    ∃ t t', step s = .next t ∧ step s' = .next t' ∧ t.outputs = t'.outputs) ∧
  (∀ b, DeliversS (.popc .n8) 0x1A5 b 4)

/-- R29: the width tag is `CMD.WSEL` in every transaction, successful or not. -/
def Obligations.WidthTagCopiesWsel : Prop :=
  ∀ s : State, ∃ t, step s = .next t ∧ t.outputs.wtag = s.inputs.cmd.extractLsb' 4 2

/-- R30: each operation drives the two ports that are not its result port with 0. -/
def Obligations.OneResultPort : Prop :=
  (∀ (i : Instr) (s : State), ∃ t, exec i s = .next t ∧
    match i with
    | .popc _ | .fsb _ => t.outputs.y = 0 ∧ t.outputs.t = false
    | .tstb _ _ | .par _ | .isp2 _ => t.outputs.y = 0 ∧ t.outputs.s = 0
    | .fmask _ _ _ | .imask _ _ _ | .rdf _ _ _ | .wrf _ _ _ => t.outputs.s = 0 ∧ t.outputs.t = false
    | .setb _ _ | .clrb _ _ | .tglb _ _ | .rol _ _ | .ror _ _ => t.outputs.s = 0 ∧ t.outputs.t = false) ∧
  (∀ i : Instr, resultClass i = .sClass ↔ (∃ w, i = .popc w) ∨ (∃ w, i = .fsb w)) ∧
  (∀ i : Instr, resultClass i = .tClass ↔ (∃ w k, i = .tstb w k) ∨ (∃ w, i = .par w) ∨ (∃ w, i = .isp2 w))

/-- R42: a result of width N, used as an operand at width M, is its low M bits; for M not below N it is the result itself. -/
def Obligations.MixedWidthOperandsAreTruncated : Prop :=
  ∀ s : State, ∃ t, step s = .next t ∧ t.outputs.y.toNat < 2 ^ cmdBits s.inputs.cmd ∧
    ∀ (c : CmdWord) (x : PortWord) (prev : State),
      (∃ u u', transact { cmd := c, a := t.outputs.y, b := x } prev = .next u ∧
        transact { cmd := c, a := BitVec.ofNat 64 (t.outputs.y.toNat % 2 ^ cmdBits c), b := x } prev = .next u' ∧
        u.outputs = u'.outputs) ∧
      (∃ u u', transact { cmd := c, a := x, b := t.outputs.y } prev = .next u ∧
        transact { cmd := c, a := x, b := BitVec.ofNat 64 (t.outputs.y.toNat % 2 ^ cmdBits c) } prev = .next u' ∧
        u.outputs = u'.outputs) ∧
      (cmdBits s.inputs.cmd ≤ cmdBits c → t.outputs.y.toNat % 2 ^ cmdBits c = t.outputs.y.toNat)

/-! ## The Mask Builder unit (40_mask_builder.md) -/

/-- R70: the right-aligned mask: its bits, both of the prescribed arms, the values listed, and that it is what
FMASK delivers at start 0. -/
def Obligations.RightAlignedMask : Prop :=
  (∀ (w : Width) (len : Nat), len ≤ w.bits →
    (∀ k, (fwdMask w.bits len).getLsbD k = decide (k < len)) ∧
    (len = w.bits → fwdMask w.bits len = BitVec.allOnes w.bits) ∧
    (len < w.bits → (fwdMask w.bits len).toNat = 1 * 2 ^ len % 2 ^ w.bits - 1) ∧
    ∀ a b, DeliversY (.fmask w len 0) a b ((fwdMask w.bits len).setWidth 64)) ∧
  (∀ w : Width, fwdMask w.bits 0 = 0 ∧ fwdMask w.bits 1 = 1) ∧
  fwdMask 8 3 = 0x07#8 ∧ fwdMask 8 8 = 0xFF#8 ∧ fwdMask 64 64 = 0xFFFFFFFFFFFFFFFF#64

/-- R71: FMASK. -/
def Obligations.FmaskDeliversForwardMask : Prop :=
  EncodedAs 0 (fun w pos len => .fmask w len.toInt pos.toInt) ∧
  (∀ (w : Width) (len start : Int) (s : State), ValidField w.bits start len →
    exec (.fmask w len start) s =
      .next { s with outputs := okY s.inputs (BitVec.ofNat 64 ((2 ^ len.toNat - 1) * 2 ^ start.toNat)) }) ∧
  (∀ (w : Width) (len start : Int), ValidField w.bits start len → (2 ^ len.toNat - 1) * 2 ^ start.toNat < 2 ^ w.bits) ∧
  (∀ (w : Width) (len start : Int) (s : State), ¬ ValidField w.bits start len →
    exec (.fmask w len start) s = .next { s with outputs := failed s.inputs (fieldCode start len) }) ∧
  (∀ s : State, s.inputs.cmd = 0x050410#24 → step s = .next { s with outputs := okY s.inputs 0x01F0 })

/-- R72: IMASK. -/
def Obligations.ImaskDeliversInverseMask : Prop :=
  EncodedAs 1 (fun w pos len => .imask w len.toInt pos.toInt) ∧
  (∀ (w : Width) (len start : Int) (s : State), ValidField w.bits start len →
    exec (.imask w len start) s =
      .next { s with outputs := okY s.inputs (BitVec.ofNat 64 (
        (2 ^ w.bits - 1) - (2 ^ len.toNat - 1) * 2 ^ start.toNat)) }) ∧
  (∀ (w : Width) (len start : Int) (s : State), ¬ ValidField w.bits start len →
    exec (.imask w len start) s = .next { s with outputs := failed s.inputs (fieldCode start len) }) ∧
  (∀ s : State, s.inputs.cmd = 0x000001#24 → step s = .next { s with outputs := okY s.inputs 0x00000000000000FF }) ∧
  (∀ s : State, s.inputs.cmd = 0x050411#24 → step s = .next { s with outputs := okY s.inputs 0xFE0F })

/-- R73, R80: FMASK, IMASK, RDF and WRF check their descriptor in the same order, report the first failing precondition with
none of the result, and clamp nothing. -/
def Obligations.DescriptorsAreCheckedNotClamped : Prop :=
  ∀ (w : Width) (start len : Int) (i : Instr),
    i = .fmask w len start ∨ i = .imask w len start ∨ i = .rdf w start len ∨ i = .wrf w start len →
    (start < 0 → FailsWith i 3) ∧
    (0 ≤ start → len < 0 → FailsWith i 4) ∧
    (0 ≤ start → 0 ≤ len → (w.bits : Int) < start + len → FailsWith i 5) ∧
    (ValidField w.bits start len → ∀ a b, ∃ y, DeliversY i a b y)

/-- R74: the empty field at start N is valid: the forward mask is 0, the inverse mask all ones, and (R81, R82) reading it
gives 0 and writing it gives the register. -/
def Obligations.EmptyFieldAtTheTop : Prop :=
  ∀ (w : Width) (a b : PortWord),
    DeliversY (.fmask w 0 w.bits) a b 0 ∧
    DeliversY (.imask w 0 w.bits) a b (BitVec.ofNat 64 (2 ^ w.bits - 1)) ∧
    DeliversY (.rdf w w.bits 0) a b 0 ∧
    DeliversY (.wrf w w.bits 0) a b (BitVec.ofNat 64 (a.toNat % 2 ^ w.bits))

/-- The laws (a) to (e) of R75, which the spec marks as derived from R70 to R72, each read off what the operations deliver. -/
def Obligations.MaskLaws : Prop :=
  ∀ (w : Width) (len start : Int), ValidField w.bits start len →
    ∃ m v m0 : PortWord,
      (∀ a b, DeliversY (.fmask w len start) a b m) ∧
      (∀ a b, DeliversY (.imask w len start) a b v) ∧
      (∀ a b, DeliversY (.fmask w len 0) a b m0) ∧
      (∀ b, DeliversS (.popc w) m b (BitVec.ofInt 8 len)) ∧
      (∀ b, DeliversS (.popc w) v b (BitVec.ofInt 8 (w.bits - len))) ∧
      m &&& v = 0 ∧ (m ||| v).toNat = 2 ^ w.bits - 1 ∧
      m.toNat = m0.toNat * 2 ^ start.toNat % 2 ^ w.bits ∧
      ∀ k : Nat, m.getLsbD k = true ↔ start ≤ k ∧ (k : Int) < start + len

/-! ## The bit_field_accessor unit (41_bit_field_accessor.md) -/

/-- R81: RDF. -/
def Obligations.RdfDeliversTheField : Prop :=
  EncodedAs 2 (fun w pos len => .rdf w pos.toInt len.toInt) ∧
  (∀ (w : Width) (start len : Int) (s : State), ValidField w.bits start len →
    exec (.rdf w start len) s = .next { s with outputs := okY s.inputs (BitVec.ofNat 64 (
      s.inputs.a.toNat % 2 ^ w.bits / 2 ^ start.toNat % 2 ^ len.toNat)) }) ∧
  (∀ (w : Width) (start len : Int) (s : State), ¬ ValidField w.bits start len →
    exec (.rdf w start len) s = .next { s with outputs := failed s.inputs (fieldCode start len) }) ∧
  (∀ s : State, s.inputs.cmd = 0x080002#24 → s.inputs.a = 0xFFFFFFFFFFFFFFA5 →
    step s = .next { s with outputs := okY s.inputs 0xA5 }) ∧
  (∀ s : State, s.inputs.cmd = 0x050412#24 → s.inputs.a = 0xD6A1 →
    step s = .next { s with outputs := okY s.inputs 0x000A })

/-- R82: WRF, bit by bit. -/
def Obligations.WrfReplacesTheField : Prop :=
  EncodedAs 3 (fun w pos len => .wrf w pos.toInt len.toInt) ∧
  (∀ (w : Width) (start len : Int) (s : State), ValidField w.bits start len →
    ∃ y : PortWord, exec (.wrf w start len) s = .next { s with outputs := okY s.inputs y } ∧
      ∀ k : Nat, y.getLsbD k =
        if start ≤ k ∧ (k : Int) < start + len then s.inputs.b.getLsbD (k - start.toNat)
        else decide (k < w.bits) && s.inputs.a.getLsbD k) ∧
  (∀ (w : Width) (start len : Int) (s : State), ¬ ValidField w.bits start len →
    exec (.wrf w start len) s = .next { s with outputs := failed s.inputs (fieldCode start len) }) ∧
  (∀ s : State, s.inputs.cmd = 0x050413#24 → s.inputs.a = 0xD6A1 →
    (s.inputs.b = 0x1F → step s = .next { s with outputs := okY s.inputs 0xD7F1 }) ∧
    (s.inputs.b = 0x20 → step s = .next { s with outputs := okY s.inputs 0xD601 }))

/-- R83: the field round trip, and the bits outside the field. The form with the truncation explicit, which the rule marks as
derived, is in FieldLaws. -/
def Obligations.FieldRoundTrip : Prop :=
  ∀ (w : Width) (start len : Int) (v x : PortWord), ValidField w.bits start len →
    ∃ r m : PortWord,
      DeliversY (.wrf w start len) v x r ∧
      (x.toNat < 2 ^ len.toNat → ∀ b, DeliversY (.rdf w start len) r b x) ∧
      (∀ a b, DeliversY (.imask w len start) a b m) ∧ r &&& m = v &&& m

/-- R84 (a) to (d), laws that the spec marks as derived from R81 and R82, with R83's form for every new value: writing back what was read changes nothing, a second equal write changes nothing, a field is below
2^len, and the whole register reads and writes whole. -/
def Obligations.FieldLaws : Prop :=
  ∀ (w : Width) (start len : Int) (v x : PortWord), ValidField w.bits start len →
    ∃ f r : PortWord,
      (∀ b, DeliversY (.rdf w start len) v b f) ∧ f.toNat < 2 ^ len.toNat ∧
      DeliversY (.wrf w start len) v f (BitVec.ofNat 64 (v.toNat % 2 ^ w.bits)) ∧
      DeliversY (.wrf w start len) v x r ∧ DeliversY (.wrf w start len) r x r ∧
      (∀ b, DeliversY (.rdf w start len) r b (BitVec.ofNat 64 (x.toNat % 2 ^ len.toNat))) ∧
      (∀ b, DeliversY (.rdf w 0 w.bits) v b (BitVec.ofNat 64 (v.toNat % 2 ^ w.bits))) ∧
      DeliversY (.wrf w 0 w.bits) v x (BitVec.ofNat 64 (x.toNat % 2 ^ w.bits))

/-! ## The single-bit operations (42_single_bit_ops.md) -/

/-- R91: SETB. -/
def Obligations.SetbSetsOneBit : Prop :=
  EncodedAs 4 (fun w pos _ => .setb w pos.toInt) ∧
  (∀ (w : Width) (idx : Int) (s : State), ValidIndex w.bits idx →
    ∃ y : PortWord, exec (.setb w idx) s = .next { s with outputs := okY s.inputs y } ∧
      ∀ k : Nat, y.getLsbD k = (decide (k < w.bits) && (decide (k = idx.toNat) || s.inputs.a.getLsbD k))) ∧
  (∀ (w : Width) (idx : Int) (s : State), ¬ ValidIndex w.bits idx →
    exec (.setb w idx) s = .next { s with outputs := failed s.inputs 2 }) ∧
  (∀ s : State, s.inputs.cmd = 0x000104#24 → s.inputs.a = 0xA5 → step s = .next { s with outputs := okY s.inputs 0xA7 })

/-- R92: CLRB. -/
def Obligations.ClrbClearsOneBit : Prop :=
  EncodedAs 5 (fun w pos _ => .clrb w pos.toInt) ∧
  (∀ (w : Width) (idx : Int) (s : State), ValidIndex w.bits idx →
    ∃ y : PortWord, exec (.clrb w idx) s = .next { s with outputs := okY s.inputs y } ∧
      ∀ k : Nat, y.getLsbD k = (decide (k < w.bits) && (decide (k ≠ idx.toNat) && s.inputs.a.getLsbD k))) ∧
  (∀ (w : Width) (idx : Int) (s : State), ¬ ValidIndex w.bits idx →
    exec (.clrb w idx) s = .next { s with outputs := failed s.inputs 2 }) ∧
  (∀ s : State, s.inputs.cmd = 0x000005#24 → s.inputs.a = 0xA5 → step s = .next { s with outputs := okY s.inputs 0xA4 })

/-- R93: TGLB. -/
def Obligations.TglbTogglesOneBit : Prop :=
  EncodedAs 6 (fun w pos _ => .tglb w pos.toInt) ∧
  (∀ (w : Width) (idx : Int) (s : State), ValidIndex w.bits idx →
    ∃ y : PortWord, exec (.tglb w idx) s = .next { s with outputs := okY s.inputs y } ∧
      ∀ k : Nat, y.getLsbD k = (decide (k < w.bits) && (decide (k = idx.toNat) ^^ s.inputs.a.getLsbD k))) ∧
  (∀ (w : Width) (idx : Int) (s : State), ¬ ValidIndex w.bits idx →
    exec (.tglb w idx) s = .next { s with outputs := failed s.inputs 2 }) ∧
  (∀ s : State, s.inputs.cmd = 0x000706#24 → s.inputs.a = 0xA5 → step s = .next { s with outputs := okY s.inputs 0x25 })

/-- R94: TSTB. -/
def Obligations.TstbTestsOneBit : Prop :=
  EncodedAs 7 (fun w pos _ => .tstb w pos.toInt) ∧
  (∀ (w : Width) (idx : Int) (s : State), ValidIndex w.bits idx →
    exec (.tstb w idx) s = .next { s with outputs := okT s.inputs (decide (
      s.inputs.a.toNat % 2 ^ w.bits / 2 ^ idx.toNat % 2 = 1)) }) ∧
  (∀ (w : Width) (idx : Int) (s : State), ¬ ValidIndex w.bits idx →
    exec (.tstb w idx) s = .next { s with outputs := failed s.inputs 2 }) ∧
  (∀ s : State, s.inputs.a = 0xA5 →
    (s.inputs.cmd = 0x000007#24 → step s = .next { s with outputs := okT s.inputs true }) ∧
    (s.inputs.cmd = 0x000107#24 → step s = .next { s with outputs := okT s.inputs false }))

/-- R90: the index is checked and never reduced modulo N, and `LEN` and `B` play no part. -/
def Obligations.IndicesAreCheckedNotReduced : Prop :=
  (∀ (w : Width) (idx : Int) (i : Instr),
    i = .setb w idx ∨ i = .clrb w idx ∨ i = .tglb w idx ∨ i = .tstb w idx →
    (idx < 0 ∨ (w.bits : Int) ≤ idx → FailsWith i 2) ∧
    (ValidIndex w.bits idx → ∀ s : State, ∃ t, exec i s = .next t ∧ t.outputs.err = 0)) ∧
  (∀ (s s' : State), (s.inputs.cmd.extractLsb' 0 8).toNat % 16 / 4 = 1 →
    s.inputs.cmd.extractLsb' 0 16 = s'.inputs.cmd.extractLsb' 0 16 → s.inputs.a = s'.inputs.a →
    ∃ t t', step s = .next t ∧ step s' = .next t' ∧ t.outputs.err = t'.outputs.err ∧
      t.outputs.y = t'.outputs.y ∧ t.outputs.t = t'.outputs.t)

/-- R95, whose equations the spec marks as derived from R91 to R94, R81 and R82: for a valid index the single-bit operations
are the field operations of length 1; for an invalid one the codes differ. With R96's derived sentence: SETB, CLRB and
TGLB change no other bit. -/
def Obligations.SingleBitIsFieldOfLengthOne : Prop :=
  ∀ (w : Width) (idx : Int) (a b : PortWord),
    (ValidIndex w.bits idx → ∃ (r1 r2 r3 f : PortWord) (t : Bool),
      DeliversY (.setb w idx) a b r1 ∧ DeliversY (.wrf w idx 1) a 1 r1 ∧
      DeliversY (.clrb w idx) a b r2 ∧ DeliversY (.wrf w idx 1) a 0 r2 ∧
      DeliversY (.rdf w idx 1) a b f ∧
      DeliversY (.tglb w idx) a b r3 ∧ DeliversY (.wrf w idx 1) a (1 - f) r3 ∧
      DeliversT (.tstb w idx) a b t ∧ f = (if t then 1 else 0) ∧
      ∀ k : Nat, k < w.bits → (k : Int) ≠ idx →
        r1.getLsbD k = a.getLsbD k ∧ r2.getLsbD k = a.getLsbD k ∧ r3.getLsbD k = a.getLsbD k) ∧
    (¬ ValidIndex w.bits idx →
      FailsWith (.setb w idx) 2 ∧ FailsWith (.clrb w idx) 2 ∧ FailsWith (.tglb w idx) 2 ∧ FailsWith (.tstb w idx) 2 ∧
      FailsWith (.wrf w idx 1) (if idx < 0 then 3 else 5) ∧ FailsWith (.rdf w idx 1) (if idx < 0 then 3 else 5))

/-- R96: test after set and after clear, idempotence, involution. (That no other bit changes, which the rule marks as derived,
is in SingleBitIsFieldOfLengthOne.) -/
def Obligations.SingleBitLaws : Prop :=
  ∀ (w : Width) (idx : Int) (v b : PortWord), ValidIndex w.bits idx →
    ∃ s1 c1 t1 : PortWord,
      DeliversY (.setb w idx) v b s1 ∧ DeliversT (.tstb w idx) s1 b true ∧ DeliversY (.setb w idx) s1 b s1 ∧
      DeliversY (.clrb w idx) v b c1 ∧ DeliversT (.tstb w idx) c1 b false ∧ DeliversY (.clrb w idx) c1 b c1 ∧
      DeliversY (.tglb w idx) v b t1 ∧ DeliversY (.tglb w idx) t1 b (BitVec.ofNat 64 (v.toNat % 2 ^ w.bits))

/-! ## The barrel_rotator unit (43_barrel_rotator.md) -/

/-- R100: only the amount modulo N matters; it is the low log2(N) bits of `POS`, and for a negative amount in two's complement
the non-negative remainder; no amount is an error; `LEN` and `B` play no part. -/
def Obligations.RotationAmountIsReduced : Prop :=
  (∀ (w : Width) (shift : Nat) (s : State),
    exec (.rol w shift) s = exec (.rol w (shift % w.bits)) s ∧ exec (.ror w shift) s = exec (.ror w (shift % w.bits)) s ∧
    (∃ t, exec (.rol w shift) s = .next t ∧ t.outputs.err = 0) ∧
    (∃ t, exec (.ror w shift) s = .next t ∧ t.outputs.err = 0)) ∧
  (∀ (w : Width) (k : Int) (s : State),
    exec (.rol w (BitVec.ofInt 8 k).toNat) s = exec (.rol w (k % (w.bits : Int)).toNat) s ∧
    exec (.ror w (BitVec.ofInt 8 k).toNat) s = exec (.ror w (k % (w.bits : Int)).toNat) s) ∧
  (∀ pos : BitVec 8, ∀ k, k < 4 → pos.toNat % (8 <<< k) = (pos.extractLsb' 0 (3 + k)).toNat) ∧
  (∀ s s' : State, s.inputs.cmd.extractLsb' 6 2 = 0#2 → (s.inputs.cmd.extractLsb' 0 4).toNat / 2 = 4 →
    s.inputs.cmd.extractLsb' 0 16 = s'.inputs.cmd.extractLsb' 0 16 → s.inputs.a = s'.inputs.a →
    ∃ t t', step s = .next t ∧ step s' = .next t' ∧ t.outputs = t'.outputs)

/-- R101: ROL, bit by bit, for every amount. -/
def Obligations.RolRotatesLeft : Prop :=
  EncodedAs 8 (fun w pos _ => .rol w pos.toNat) ∧
  (∀ (w : Width) (shift : Nat) (s : State),
    ∃ y : PortWord, exec (.rol w shift) s = .next { s with outputs := okY s.inputs y } ∧
      (∀ k, k < w.bits → y.getLsbD ((k + shift % w.bits) % w.bits) = s.inputs.a.getLsbD k) ∧
      (∀ k, w.bits ≤ k → y.getLsbD k = false)) ∧
  (∀ s : State, s.inputs.cmd = 0x000408#24 → s.inputs.a = 0x1A5 → step s = .next { s with outputs := okY s.inputs 0x5A }) ∧
  (∀ s : State, s.inputs.cmd = 0x000438#24 → s.inputs.a = 0x800000000000000F →
    step s = .next { s with outputs := okY s.inputs 0x00000000000000F8 })

/-- R102: ROR, bit by bit, for every amount. -/
def Obligations.RorRotatesRight : Prop :=
  EncodedAs 9 (fun w pos _ => .ror w pos.toNat) ∧
  (∀ (w : Width) (shift : Nat) (s : State),
    ∃ y : PortWord, exec (.ror w shift) s = .next { s with outputs := okY s.inputs y } ∧
      (∀ k, k < w.bits → y.getLsbD k = s.inputs.a.getLsbD ((k + shift % w.bits) % w.bits)) ∧
      (∀ k, w.bits ≤ k → y.getLsbD k = false)) ∧
  (∀ s : State, s.inputs.cmd = 0x000439#24 →
    (s.inputs.a = 0x800000000000000F → step s = .next { s with outputs := okY s.inputs 0xF800000000000000 }) ∧
    (s.inputs.a = 0x00000000000000F8 → step s = .next { s with outputs := okY s.inputs 0x800000000000000F }))

/-- R103: the round trip, the full-width rotation, the population count. -/
def Obligations.RotationLaws : Prop :=
  ∀ (w : Width) (v b : PortWord) (x : Nat), v.toNat < 2 ^ w.bits →
    ∃ (l r : PortWord) (c : BitVec 8),
      DeliversY (.rol w x) v b l ∧ DeliversY (.ror w x) l b v ∧ DeliversY (.ror w x) v b r ∧
      DeliversY (.rol w w.bits) v b v ∧
      DeliversS (.popc w) v b c ∧ DeliversS (.popc w) l b c ∧ DeliversS (.popc w) r b c

/-- What R102 and R103 mark as derived from R101 and R102: ROR is ROL by (N - s) mod N; two rotations to the left compose;
ROL undoes ROR; each rotation is a bijection on N-bit values. -/
def Obligations.RotationsCompose : Prop :=
  (∀ (w : Width) (shift : Nat) (s : State),
    exec (.ror w shift) s = exec (.rol w ((w.bits - shift % w.bits) % w.bits)) s) ∧
  (∀ (w : Width) (v b : PortWord) (x z : Nat), v.toNat < 2 ^ w.bits →
    ∃ (l r lz : PortWord),
      DeliversY (.rol w x) v b l ∧ DeliversY (.rol w z) l b lz ∧ DeliversY (.rol w ((x + z) % w.bits)) v b lz ∧
      DeliversY (.ror w x) v b r ∧ DeliversY (.rol w x) r b v ∧
      (∃! u : PortWord, u.toNat < 2 ^ w.bits ∧ DeliversY (.rol w x) u b v) ∧
      (∃! u : PortWord, u.toNat < 2 ^ w.bits ∧ DeliversY (.ror w x) u b v))

/-! ## The analysis units (44 to 47) -/

/-- R110: POPC. -/
def Obligations.PopcCountsOneBits : Prop :=
  EncodedAs 10 (fun w _ _ => .popc w) ∧
  (∀ (w : Width) (s : State),
    exec (.popc w) s = .next { s with outputs := okS s.inputs (BitVec.ofNat 8 (bitSum w.bits s.inputs.a.toNat)) }) ∧
  (∀ (w : Width) (v : Nat), bitSum w.bits v ≤ w.bits) ∧
  (∀ s : State, s.inputs.cmd = 0x00000A#24 → s.inputs.a = 0x1A5 → step s = .next { s with outputs := okS s.inputs 4 }) ∧
  (∀ s : State, s.inputs.cmd = 0x00000A#24 → s.inputs.a = 0x100 → step s = .next { s with outputs := okS s.inputs 0 }) ∧
  (∀ s : State, s.inputs.cmd = 0x00003A#24 → s.inputs.a = 0x800000000000000F →
    step s = .next { s with outputs := okS s.inputs 5 })

/-- R112: the counts of a value and of its complement inside N bits (which the host forms with `IMASK.N 0, 0`) add up to N. -/
def Obligations.PopcountLaws : Prop :=
  ∀ (w : Width) (v b : PortWord), ∃ (ones : PortWord) (c d : BitVec 8),
    DeliversY (.imask w 0 0) v b ones ∧ DeliversS (.popc w) v b c ∧ DeliversS (.popc w) (v ^^^ ones) b d ∧
    c.toNat + d.toNat = w.bits

/-- R115, R116: PAR is 1 exactly for an odd count. -/
def Obligations.ParIsOddCount : Prop :=
  EncodedAs 11 (fun w _ _ => .par w) ∧
  (∀ (w : Width) (s : State),
    exec (.par w) s = .next { s with outputs := okT s.inputs (decide (
      bitSum w.bits s.inputs.a.toNat % 2 = 1)) }) ∧
  (∀ (w : Width) (b : PortWord), DeliversT (.par w) 0 b false ∧
    DeliversT (.par w) (BitVec.ofNat 64 (2 ^ w.bits - 1)) b false ∧
    ∀ k, k < w.bits → DeliversT (.par w) (BitVec.ofNat 64 (2 ^ k)) b true) ∧
  (∀ s : State, s.inputs.cmd = 0x00003B#24 → s.inputs.a = 0x800000000000000F →
    step s = .next { s with outputs := okT s.inputs true })

/-- R120: FSB. -/
def Obligations.FsbFindsTheLeastSetBit : Prop :=
  EncodedAs 12 (fun w _ _ => .fsb w) ∧
  (∀ (w : Width) (s : State), s.inputs.a.toNat % 2 ^ w.bits = 0 →
    exec (.fsb w) s = .next { s with outputs := okS s.inputs 0xFF }) ∧
  (∀ (w : Width) (s : State), s.inputs.a.toNat % 2 ^ w.bits ≠ 0 →
    ∃ k, k < w.bits ∧ s.inputs.a.getLsbD k = true ∧ (∀ j, j < k → s.inputs.a.getLsbD j = false) ∧
      exec (.fsb w) s = .next { s with outputs := okS s.inputs (BitVec.ofNat 8 k) }) ∧
  (∀ s : State, s.inputs.cmd = 0x00000C#24 → s.inputs.a = 0x100 → step s = .next { s with outputs := okS s.inputs 0xFF }) ∧
  (∀ s : State, s.inputs.cmd = 0x00000C#24 → s.inputs.a = 0x2C → step s = .next { s with outputs := okS s.inputs 0x02 }) ∧
  (∀ s : State, s.inputs.cmd = 0x00003C#24 → s.inputs.a = 0 → step s = .next { s with outputs := okS s.inputs 0xFF })

/-- R121: the sentinel at 0; else the found bit tests true and no lower bit does. -/
def Obligations.FsbLaws : Prop :=
  (∀ (w : Width) (b : PortWord), DeliversS (.fsb w) 0 b 0xFF) ∧
  (∀ (w : Width) (v b : PortWord), v.toNat % 2 ^ w.bits ≠ 0 →
    ∃ k, k < w.bits ∧ DeliversS (.fsb w) v b (BitVec.ofNat 8 k) ∧ DeliversT (.tstb w k) v b true ∧
      ∀ j : Nat, j < k → DeliversT (.tstb w j) v b false)

/-- What R121 marks as derived from R120 and R90: the found index is valid for every single-bit operation; the sentinel, used as
an index, raises error 2; the isolated lowest bit; the first set bit of a forward mask is its start. -/
def Obligations.FsbFeedsTheBitOperations : Prop :=
  (∀ (w : Width) (v b : PortWord), v.toNat % 2 ^ w.bits ≠ 0 →
    ∃ k, k < w.bits ∧ DeliversS (.fsb w) v b (BitVec.ofNat 8 k) ∧
      (∃ y1 y2 y3, DeliversY (.setb w k) v b y1 ∧ DeliversY (.clrb w k) v b y2 ∧ DeliversY (.tglb w k) v b y3) ∧
      (∃ x, DeliversT (.tstb w k) v b x) ∧
      2 ^ k = (v.toNat % 2 ^ w.bits) &&& (2 ^ w.bits - v.toNat % 2 ^ w.bits)) ∧
  (∀ w : Width, FailsWith (.setb w (s8 0xFF)) 2 ∧ FailsWith (.clrb w (s8 0xFF)) 2 ∧
    FailsWith (.tglb w (s8 0xFF)) 2 ∧ FailsWith (.tstb w (s8 0xFF)) 2) ∧
  (∀ (w : Width) (len start : Int) (a b : PortWord), ValidField w.bits start len → 0 < len →
    ∃ m, DeliversY (.fmask w len start) a b m ∧ DeliversS (.fsb w) m b (BitVec.ofInt 8 start))

/-- R125: ISP2 is true exactly where the rule's test is. -/
def Obligations.Isp2TestsForAPower : Prop :=
  EncodedAs 13 (fun w _ _ => .isp2 w) ∧
  (∀ (w : Width) (s : State), ∃ t : Bool, exec (.isp2 w) s = .next { s with outputs := okT s.inputs t } ∧
    (t = true ↔ 0 < s.inputs.a.toNat % 2 ^ w.bits ∧
      (s.inputs.a.toNat % 2 ^ w.bits) &&& (s.inputs.a.toNat % 2 ^ w.bits - 1) = 0)) ∧
  (∀ s : State, s.inputs.cmd = 0x00000D#24 → s.inputs.a = 0x100 → step s = .next { s with outputs := okT s.inputs false }) ∧
  (∀ s : State, s.inputs.cmd = 0x00003D#24 → s.inputs.a = 0x100000000 →
    step s = .next { s with outputs := okT s.inputs true }) ∧
  (∀ s : State, s.inputs.cmd = 0x00001D#24 → s.inputs.a = 0x8000 → step s = .next { s with outputs := okT s.inputs true }) ∧
  (∀ s : State, s.inputs.cmd = 0x00000D#24 → s.inputs.a = 3 → step s = .next { s with outputs := okT s.inputs false })

/-- R126: false at 0, true at every power below 2^N, false at 3. And, at every width, true exactly when POPC gives 1: R126 names
this at N = 8 only, and R125 marks "exactly when `popcnt_N(a) = 1`" as derived from itself, so this clause is derived. -/
def Obligations.Isp2Laws : Prop :=
  ∀ (w : Width) (b : PortWord),
    DeliversT (.isp2 w) 0 b false ∧ DeliversT (.isp2 w) 3 b false ∧
    (∀ k, k < w.bits → DeliversT (.isp2 w) (BitVec.ofNat 64 (2 ^ k)) b true) ∧
    ∀ v : PortWord, ∃ (t : Bool) (c : BitVec 8), DeliversT (.isp2 w) v b t ∧ DeliversS (.popc w) v b c ∧ (t = true ↔ c = 1)

/-- Forms that R54, R70, R112, R115 and R125 mark as derived from themselves: an amount read signed gives the same remainder; the
right-aligned mask is 2^len - 1; a count is 0 exactly at 0; parity is the exclusive or of the N bits; ISP2 is true exactly
for the powers of two below 2^N, which is a population count of 1. -/
def Obligations.DerivedFormsOfResults : Prop :=
  (∀ pos : BitVec 8, ∀ k, k < 4 → pos.toInt % ((8 <<< k : Nat) : Int) = ((pos.toNat % (8 <<< k) : Nat) : Int)) ∧
  (∀ (w : Width) (len : Nat), len ≤ w.bits → (fwdMask w.bits len).toNat = 2 ^ len - 1) ∧
  (∀ (w : Width) (v b : PortWord), ∃ c, DeliversS (.popc w) v b c ∧ (c = 0 ↔ v.toNat % 2 ^ w.bits = 0)) ∧
  (∀ (w : Width) (s : State),
    exec (.par w) s = .next { s with outputs := okT s.inputs (
      (List.range w.bits).foldl (fun x k => x ^^ s.inputs.a.getLsbD k) false) }) ∧
  (∀ (w : Width) (s : State), ∃ t : Bool, exec (.isp2 w) s = .next { s with outputs := okT s.inputs t } ∧
    (t = true ↔ ∃ k, k < w.bits ∧ s.inputs.a.toNat % 2 ^ w.bits = 2 ^ k) ∧
    (t = true ↔ bitSum w.bits s.inputs.a.toNat = 1))

/-! ## Errors (60_exceptions.md, 00_scope.md R13) -/

/-- R13: an operation on a field succeeds exactly on a valid descriptor (the sum is exact), one on a bit exactly on a valid
index. The two consequences that the rule marks as derived, the empty field valid at 0 to N and the full one only at 0, are
instances of it: ValidField at `len` 0 and at `len` N. -/
def Obligations.ValidOperandsSucceed : Prop :=
  (∀ (w : Width) (start len : Int) (i : Instr) (s : State),
    i = .fmask w len start ∨ i = .imask w len start ∨ i = .rdf w start len ∨ i = .wrf w start len →
    ∃ t, exec i s = .next t ∧ (t.outputs.err = 0 ↔ 0 ≤ start ∧ 0 ≤ len ∧ start + len ≤ w.bits)) ∧
  (∀ (w : Width) (idx : Int) (i : Instr) (s : State),
    i = .setb w idx ∨ i = .clrb w idx ∨ i = .tglb w idx ∨ i = .tstb w idx →
    ∃ t, exec i s = .next t ∧ (t.outputs.err = 0 ↔ 0 ≤ idx ∧ idx < w.bits))

/-- R131: error 1 exactly on an illegal word, whatever `A`, `B`, `POS` and `LEN` hold. -/
def Obligations.IllegalCommandExactly : Prop :=
  ∀ s : State, ∃ t, step s = .next t ∧ (t.outputs.err = 1 ↔
    s.inputs.cmd.extractLsb' 6 2 ≠ 0#2 ∨ s.inputs.cmd.extractLsb' 0 4 = 14#4 ∨ s.inputs.cmd.extractLsb' 0 4 = 15#4)

/-- R132: error 2 exactly on a legal word of opcode 4 to 7 whose signed `POS` is outside [0, N). -/
def Obligations.IndexRangeExactly : Prop :=
  ∀ s : State, ∃ t, step s = .next t ∧
    (t.outputs.err = 2 ↔ s.inputs.cmd.extractLsb' 6 2 = 0#2 ∧
      4 ≤ (s.inputs.cmd.extractLsb' 0 4).toNat ∧ (s.inputs.cmd.extractLsb' 0 4).toNat ≤ 7 ∧
      ((s.inputs.cmd.extractLsb' 8 8).toInt < 0 ∨ (s.inputs.cmd.extractLsb' 8 8).toInt ≥ cmdBits s.inputs.cmd))

/-- R133: errors 3, 4 and 5 exactly on a legal word of opcode 0 to 3 by the first failing precondition on the signed
bytes. -/
def Obligations.FieldErrorsExactly : Prop :=
  ∀ s : State, ∃ t, step s = .next t ∧
    let c := s.inputs.cmd
    let fieldOp := c.extractLsb' 6 2 = 0#2 ∧ (c.extractLsb' 0 4).toNat ≤ 3
    let start := (c.extractLsb' 8 8).toInt
    let len := (c.extractLsb' 16 8).toInt
    (t.outputs.err = 3 ↔ fieldOp ∧ start < 0) ∧
    (t.outputs.err = 4 ↔ fieldOp ∧ 0 ≤ start ∧ len < 0) ∧
    (t.outputs.err = 5 ↔ fieldOp ∧ 0 ≤ start ∧ 0 ≤ len ∧ start + len > cmdBits c)

/-- What R132, R133 and R135 mark as derived: read unsigned, error 2 is raised exactly when `POS` is at least N, and one of errors
3, 4 and 5 exactly when `POS + LEN` is more than N; `EINFO` is never 0 on an error. -/
def Obligations.UnsignedReadingsOfTheChecks : Prop :=
  ∀ s : State, ∃ t, step s = .next t ∧
    let c := s.inputs.cmd
    (t.outputs.err = 2 ↔ c.extractLsb' 6 2 = 0#2 ∧ 4 ≤ (c.extractLsb' 0 4).toNat ∧ (c.extractLsb' 0 4).toNat ≤ 7 ∧
      (c.extractLsb' 8 8).toNat ≥ cmdBits c) ∧
    (t.outputs.err = 3 ∨ t.outputs.err = 4 ∨ t.outputs.err = 5 ↔ c.extractLsb' 6 2 = 0#2 ∧
      (c.extractLsb' 0 4).toNat ≤ 3 ∧ (c.extractLsb' 8 8).toNat + (c.extractLsb' 16 8).toNat > cmdBits c) ∧
    (t.outputs.err ≠ 0 → t.outputs.einfo ≠ 0)

/-- R134, R135: a failed transaction shows its code, the whole command word and zeros, and changes nothing else; a host reads
from it no result; `EINFO` is 0 on success; `A` and `B` neither cause an error nor are recorded. -/
def Obligations.FailureShowsCodeAndCommand : Prop :=
  (∀ s : State, ∃ t, step s = .next t ∧
    (t.outputs.err ≠ 0 → t = { s with outputs := failed s.inputs t.outputs.err } ∧ t.outputs.einfo = s.inputs.cmd ∧
      ∀ c : ResultClass, hostReads c t.outputs = .failed t.outputs.err s.inputs.cmd) ∧
    (t.outputs.err = 0 → t.outputs.einfo = 0)) ∧
  (∀ s s' : State, s.inputs.cmd = s'.inputs.cmd → ∃ t t', step s = .next t ∧ step s' = .next t' ∧
    t.outputs.err = t'.outputs.err ∧ t.outputs.einfo = t'.outputs.einfo)

/-- R136: the code reported, as the first of the checks that applies, and the two examples. -/
def Obligations.ErrorPriority : Prop :=
  (∀ s : State, ∃ t, step s = .next t ∧
    let c := s.inputs.cmd
    let pos := (c.extractLsb' 8 8).toInt
    let len := (c.extractLsb' 16 8).toInt
    t.outputs.err =
      if IllegalWord c then 1
      else if (c.extractLsb' 0 4).toNat ≤ 3 then
        (if pos < 0 then 3 else if len < 0 then 4 else if pos + len > cmdBits c then 5 else 0)
      else if (c.extractLsb' 0 4).toNat ≤ 7 then (if pos < 0 ∨ pos ≥ cmdBits c then 2 else 0)
      else 0) ∧
  (∀ s : State, s.inputs.cmd = 0x808000#24 → step s = .next { s with outputs := failed s.inputs 3 }) ∧
  (∀ s : State, s.inputs.cmd = 0x0504D2#24 → step s = .next { s with outputs := failed s.inputs 1 })

/-- R137: what is no error. -/
def Obligations.NotErrors : Prop :=
  (∀ (w : Width) (start len : Int) (a b : PortWord), ValidField w.bits start len → ∃ y, DeliversY (.wrf w start len) a b y) ∧
  (∀ (w : Width) (b : PortWord), DeliversS (.fsb w) 0 b 0xFF ∧ DeliversT (.isp2 w) 0 b false) ∧
  (∀ (w : Width) (shift : Nat) (a b : PortWord), ∃ l r, DeliversY (.rol w shift) a b l ∧ DeliversY (.ror w shift) a b r) ∧
  (∀ (w : Width) (start : Int) (a b : PortWord), 0 ≤ start → start ≤ w.bits →
    ∃ m v f r, DeliversY (.fmask w 0 start) a b m ∧ DeliversY (.imask w 0 start) a b v ∧
      DeliversY (.rdf w start 0) a b f ∧ DeliversY (.wrf w start 0) a b r) ∧
  (∀ s s' : State, SameReadFields s.inputs.cmd s'.inputs.cmd →
    ∃ t t', step s = .next t ∧ step s' = .next t' ∧ t.outputs.err = t'.outputs.err) ∧
  (∀ s : State, 8 ≤ (s.inputs.cmd.extractLsb' 0 4).toNat → (s.inputs.cmd.extractLsb' 0 4).toNat ≤ 13 →
    ∃ t, step s = .next t ∧ t.outputs.err = if s.inputs.cmd.extractLsb' 6 2 = 0#2 then 0 else 1)

/-- R138, R140: a transaction inserted anywhere in a run, failed or not, changes no other transaction's outputs. -/
def Obligations.FailuresLeaveNothingBehind : Prop :=
  ∀ (ps qs : List Inputs) (p : Inputs) (s : State), ∃ before here after last last',
    runTransactions (ps ++ p :: qs) s = some (before ++ here :: after, last) ∧
    runTransactions (ps ++ qs) s = some (before ++ after, last') ∧ before.length = ps.length ∧ after.length = qs.length

/-- R147, which the spec marks as derived from R131 to R133: no operation reports a code outside its row, every "yes" cell is reached at every width, and code 1 comes
from the reserved bits or the two unassigned opcodes alone. -/
def Obligations.ErrorMatrix : Prop :=
  (∀ (i : Instr) (s : State), ∃ t, exec i s = .next t ∧ t.outputs.err ∈ codesOf i) ∧
  (∀ w : Width,
    FailsWith (.fmask w 0 (-1)) 3 ∧ FailsWith (.fmask w (-1) 0) 4 ∧ FailsWith (.fmask w (w.bits + 1) 0) 5 ∧
    FailsWith (.imask w 0 (-1)) 3 ∧ FailsWith (.imask w (-1) 0) 4 ∧ FailsWith (.imask w (w.bits + 1) 0) 5 ∧
    FailsWith (.rdf w (-1) 0) 3 ∧ FailsWith (.rdf w 0 (-1)) 4 ∧ FailsWith (.rdf w (w.bits + 1) 0) 5 ∧
    FailsWith (.wrf w (-1) 0) 3 ∧ FailsWith (.wrf w 0 (-1)) 4 ∧ FailsWith (.wrf w (w.bits + 1) 0) 5 ∧
    FailsWith (.setb w w.bits) 2 ∧ FailsWith (.clrb w w.bits) 2 ∧ FailsWith (.tglb w w.bits) 2 ∧
    FailsWith (.tstb w w.bits) 2) ∧
  (∀ s : State, ∃ t, step s = .next t ∧ (t.outputs.err = 1 ↔ IllegalWord s.inputs.cmd))
end

