-- ==== Sys2Proof/Laws/Bits.lean ====
section
/-! SUPPORT. What each shared bit-level helper and each value function computes, bit by bit and as an integer. -/

namespace Sys2Proof.Machine

theorem toNat_fwdMask {n len : Nat} (h : len ≤ n) : (fwdMask n len).toNat = 2 ^ len - 1 := by
  unfold fwdMask
  split
  · next e => simp [e]
  · have hlt : len < n := by omega
    have h2 : 2 ^ len < 2 ^ n := Nat.pow_lt_pow_right (by omega) hlt
    have h1 : 1 < 2 ^ n := Nat.one_lt_two_pow (by omega)
    have h0 := Nat.two_pow_pos len
    rw [BitVec.toNat_sub, BitVec.toNat_shiftLeft, BitVec.toNat_ofNat, Nat.mod_eq_of_lt h1, Nat.shiftLeft_eq, one_mul,
      Nat.mod_eq_of_lt h2]
    have : 2 ^ n - 1 + 2 ^ len = (2 ^ len - 1) + 2 ^ n := by omega
    rw [this, Nat.add_mod_right, Nat.mod_eq_of_lt (by omega)]

theorem getLsbD_fwdMask {n len : Nat} (h : len ≤ n) (k : Nat) : (fwdMask n len).getLsbD k = decide (k < len) := by
  rw [← BitVec.testBit_toNat, toNat_fwdMask h, Nat.testBit_two_pow_sub_one]

theorem getLsbD_forwardMask {n len start : Nat} (h : start + len ≤ n) (k : Nat) :
    (forwardMask n len start).getLsbD k = decide (start ≤ k ∧ k < start + len) := by
  rw [forwardMask, BitVec.getLsbD_shiftLeft, getLsbD_fwdMask (by omega), Bool.eq_iff_iff]
  simp only [Bool.and_eq_true, decide_eq_true_eq, Bool.not_eq_true', decide_eq_false_iff_not]
  omega

theorem toNat_forwardMask {n len start : Nat} (h : start + len ≤ n) :
    (forwardMask n len start).toNat = (2 ^ len - 1) * 2 ^ start := by
  rw [forwardMask, BitVec.toNat_shiftLeft, toNat_fwdMask (by omega), Nat.shiftLeft_eq, Nat.mod_eq_of_lt]
  calc (2 ^ len - 1) * 2 ^ start < 2 ^ len * 2 ^ start :=
        Nat.mul_lt_mul_of_pos_right (Nat.sub_lt (Nat.two_pow_pos _) one_pos) (Nat.two_pow_pos _)
    _ = 2 ^ (start + len) := by rw [← pow_add, add_comm]
    _ ≤ 2 ^ n := Nat.pow_le_pow_right (by omega) h

theorem getLsbD_inverseMask {n len start : Nat} (h : start + len ≤ n) (k : Nat) :
    (inverseMask n len start).getLsbD k = decide (k < n ∧ ¬ (start ≤ k ∧ k < start + len)) := by
  rw [inverseMask, BitVec.getLsbD_not, getLsbD_forwardMask h, Bool.eq_iff_iff]
  simp

theorem toNat_inverseMask {n len start : Nat} (h : start + len ≤ n) :
    (inverseMask n len start).toNat = 2 ^ n - 1 - (2 ^ len - 1) * 2 ^ start := by
  rw [inverseMask, BitVec.toNat_not, toNat_forwardMask h]

theorem getLsbD_readField {n start len : Nat} (a : RegVal n) (h : start + len ≤ n) (k : Nat) :
    (readField a start len).getLsbD k = (decide (k < len) && a.getLsbD (start + k)) := by
  rw [readField, BitVec.getLsbD_and, BitVec.getLsbD_ushiftRight, getLsbD_fwdMask (by omega), Bool.and_comm]

theorem toNat_readField {n start len : Nat} (a : RegVal n) (h : start + len ≤ n) :
    (readField a start len).toNat = a.toNat / 2 ^ start % 2 ^ len := by
  rw [readField, BitVec.toNat_and, BitVec.toNat_ushiftRight, toNat_fwdMask (by omega), Nat.and_two_pow_sub_one_eq_mod,
    Nat.shiftRight_eq_div_pow]

theorem getLsbD_writeField {n start len : Nat} (a b : RegVal n) (h : start + len ≤ n) (k : Nat) :
    (writeField a start len b).getLsbD k =
      if start ≤ k ∧ k < start + len then b.getLsbD (k - start) else a.getLsbD k := by
  rw [writeField, BitVec.getLsbD_or, BitVec.getLsbD_and, getLsbD_inverseMask h, BitVec.getLsbD_shiftLeft,
    BitVec.getLsbD_and, getLsbD_fwdMask (by omega)]
  by_cases hk : k < n
  · split
    · next hc =>
      have h1 : ¬ k < start := by omega
      have h2 : k - start < len := by omega
      simp [hk, hc, h1, h2]
    · next hc =>
      have : (!decide (k < start) && (b.getLsbD (k - start) && decide (k - start < len))) = false := by
        by_contra h3
        simp only [Bool.not_eq_false, Bool.and_eq_true, Bool.not_eq_true', decide_eq_false_iff_not,
          decide_eq_true_eq] at h3
        omega
      simp [hk, hc, this]
  · rw [BitVec.getLsbD_of_ge a k (by omega), if_neg (by omega)]
    simp [hk]

theorem getLsbD_bitMask (n i k : Nat) : (bitMask n i).getLsbD k = decide (k < n ∧ k = i) := by
  rw [bitMask, BitVec.getLsbD_shiftLeft, BitVec.getLsbD_one, Bool.eq_iff_iff]
  simp only [Bool.and_eq_true, decide_eq_true_eq, Bool.not_eq_true', decide_eq_false_iff_not]
  omega

theorem getLsbD_setBit {n : Nat} (a : RegVal n) (i k : Nat) :
    (setBit a i).getLsbD k = (decide (k < n) && (decide (k = i) || a.getLsbD k)) := by
  rw [setBit, BitVec.getLsbD_or, getLsbD_bitMask]
  by_cases hk : k < n
  · simp [hk, Bool.or_comm]
  · simp [hk, BitVec.getLsbD_of_ge a k (by omega)]

theorem getLsbD_clearBit {n : Nat} (a : RegVal n) (i k : Nat) :
    (clearBit a i).getLsbD k = (decide (k < n) && (decide (k ≠ i) && a.getLsbD k)) := by
  rw [clearBit, BitVec.getLsbD_and, BitVec.getLsbD_not, getLsbD_bitMask]
  by_cases hk : k < n
  · simp [hk, Bool.and_comm]
  · simp [hk]

theorem getLsbD_toggleBit {n : Nat} (a : RegVal n) (i k : Nat) :
    (toggleBit a i).getLsbD k = (decide (k < n) && (decide (k = i) ^^ a.getLsbD k)) := by
  rw [toggleBit, BitVec.getLsbD_xor, getLsbD_bitMask]
  by_cases hk : k < n
  · simp [hk, Bool.xor_comm]
  · simp [hk, BitVec.getLsbD_of_ge a k (by omega)]

theorem isBitSet_eq {n : Nat} (a : RegVal n) (i : Nat) : isBitSet a i = a.getLsbD i := by
  rw [isBitSet, BitVec.getLsbD_ushiftRight, Nat.add_zero]

/-- The rotation of the rules is the library's. -/
theorem rotateLeft_eq {n : Nat} (a : RegVal n) (shift : Nat) : rotateLeft a shift = a.rotateLeft shift := by
  have e : rotationAmount n shift = shift % n := rfl
  unfold rotateLeft BitVec.rotateLeft BitVec.rotateLeftAux
  rw [e]
  by_cases h : shift % n = 0
  · simp [h, BitVec.ushiftRight_eq_zero (le_refl n)]
  · exact if_neg h

theorem rotateRight_eq {n : Nat} (a : RegVal n) (shift : Nat) : rotateRight a shift = a.rotateRight shift := by
  have e : rotationAmount n shift = shift % n := rfl
  unfold rotateRight BitVec.rotateRight BitVec.rotateRightAux
  rw [e]
  by_cases h : shift % n = 0
  · simp [h, BitVec.shiftLeft_eq_zero (le_refl n)]
  · exact if_neg h

/-- Bit `k` of a value comes to bit `(k + s) mod N` (R101). -/
theorem getLsbD_rotateLeft_add {n : Nat} (a : RegVal n) (shift k : Nat) (hk : k < n) :
    (rotateLeft a shift).getLsbD ((k + shift % n) % n) = a.getLsbD k := by
  have hs : shift % n < n := Nat.mod_lt _ (by omega)
  rw [rotateLeft_eq, BitVec.getLsbD_rotateLeft, Bool.cond_decide]
  by_cases hc : k + shift % n < n
  · rw [Nat.mod_eq_of_lt hc, if_neg (by omega)]
    simp [hc]
  · have e : (k + shift % n) % n = k + shift % n - n := by
      rw [Nat.mod_eq_sub_mod (by omega), Nat.mod_eq_of_lt (by omega)]
    rw [e, if_pos (by omega)]
    congr 1
    omega

/-- Bit `k` of the result is bit `(k + s) mod N` of the value (R102). -/
theorem getLsbD_rotateRight_of_lt {n : Nat} (a : RegVal n) (shift k : Nat) (hk : k < n) :
    (rotateRight a shift).getLsbD k = a.getLsbD ((k + shift % n) % n) := by
  have hs : shift % n < n := Nat.mod_lt _ (by omega)
  rw [rotateRight_eq, BitVec.getLsbD_rotateRight, Bool.cond_decide]
  by_cases hc : k < n - shift % n
  · rw [if_pos hc, Nat.mod_eq_of_lt (show k + shift % n < n by omega), Nat.add_comm]
  · have e : (k + shift % n) % n = k + shift % n - n := by
      rw [Nat.mod_eq_sub_mod (by omega), Nat.mod_eq_of_lt (by omega)]
    rw [if_neg hc, e]
    simp only [hk, decide_true, Bool.true_and]
    congr 1
    omega

/-- The population count as a sum of the bits of the integer (R11, R110). -/
theorem popcnt_eq_sum {n : Nat} (v : RegVal n) : popcnt v = ∑ k ∈ Finset.range n, v.toNat / 2 ^ k % 2 := by
  have key : ∀ m, (List.range m).countP v.getLsbD = ∑ k ∈ Finset.range m, v.toNat / 2 ^ k % 2 := by
    intro m
    induction m with
    | zero => simp
    | succ m ih =>
      rw [List.range_succ, List.countP_append, Finset.sum_range_succ, ih, List.countP_singleton, ← BitVec.testBit_toNat,
        Nat.testBit_eq_decide_div_mod_eq]
      rcases Nat.mod_two_eq_zero_or_one (v.toNat / 2 ^ m) with h | h <;> simp [h]
  exact key n

theorem popcnt_le {n : Nat} (v : RegVal n) : popcnt v ≤ n := by
  simpa [popcnt] using List.countP_le_length (p := v.getLsbD) (l := List.range n)

/-- `leastSetBit` finds the least set index (R120). -/
theorem leastSetBit_eq_some {n : Nat} (v : RegVal n) (i : Nat) :
    leastSetBit v = some i ↔ i < n ∧ v.getLsbD i = true ∧ ∀ j, j < i → v.getLsbD j = false := by
  have key : ∀ m, (List.range m).find? v.getLsbD = some i ↔
      i < m ∧ v.getLsbD i = true ∧ ∀ j, j < i → v.getLsbD j = false := by
    intro m
    rw [List.find?_range_eq_some]
    constructor
    · rintro ⟨h1, h2, h3⟩
      exact ⟨by simpa using h2, h1, fun j hj => by simpa using h3 j hj⟩
    · rintro ⟨h1, h2, h3⟩
      exact ⟨h2, by simpa using h1, fun j hj => by simp [h3 j hj]⟩
  exact key n

theorem leastSetBit_eq_none {n : Nat} (v : RegVal n) : leastSetBit v = none ↔ v = 0#n := by
  rw [leastSetBit, List.find?_eq_none]
  constructor
  · intro h
    apply BitVec.eq_of_getLsbD_eq
    intro i hi
    simpa using h i (by simpa using hi)
  · rintro rfl
    simp

end Sys2Proof.Machine
end

