-- ==== Sys2Proof/Laws/State.lean ====
section
/-! SUPPORT. One lemma per port and update: what each operation on the state leaves and writes. -/

namespace Sys2Proof.Machine

@[simp] theorem present_inputs (p : Inputs) (st : State) : (present p st).inputs = p := rfl
@[simp] theorem present_outputs (p : Inputs) (st : State) : (present p st).outputs = st.outputs := rfl
@[simp] theorem presentCmd_cmd (c : CmdWord) (st : State) : (presentCmd c st).inputs.cmd = c := rfl
@[simp] theorem presentCmd_a (c : CmdWord) (st : State) : (presentCmd c st).inputs.a = st.inputs.a := rfl
@[simp] theorem presentCmd_b (c : CmdWord) (st : State) : (presentCmd c st).inputs.b = st.inputs.b := rfl
@[simp] theorem presentCmd_outputs (c : CmdWord) (st : State) : (presentCmd c st).outputs = st.outputs := rfl
@[simp] theorem presentedCmd_eq (st : State) : presentedCmd st = st.inputs.cmd := rfl

@[simp] theorem succeed_inputs (y : PortWord) (k : BitVec 8) (t : Bool) (st : State) :
    (succeed y k t st).inputs = st.inputs := rfl
@[simp] theorem succeed_y (y : PortWord) (k : BitVec 8) (t : Bool) (st : State) : (succeed y k t st).outputs.y = y := rfl
@[simp] theorem succeed_s (y : PortWord) (k : BitVec 8) (t : Bool) (st : State) : (succeed y k t st).outputs.s = k := rfl
@[simp] theorem succeed_t (y : PortWord) (k : BitVec 8) (t : Bool) (st : State) : (succeed y k t st).outputs.t = t := rfl
@[simp] theorem succeed_err (y : PortWord) (k : BitVec 8) (t : Bool) (st : State) :
    (succeed y k t st).outputs.err = 0 := rfl
@[simp] theorem succeed_einfo (y : PortWord) (k : BitVec 8) (t : Bool) (st : State) :
    (succeed y k t st).outputs.einfo = 0 := rfl
@[simp] theorem succeed_wtag (y : PortWord) (k : BitVec 8) (t : Bool) (st : State) :
    (succeed y k t st).outputs.wtag = cmdWsel st.inputs.cmd := rfl

@[simp] theorem raiseErr_inputs (e : ErrCode) (st : State) : (raiseErr e st).inputs = st.inputs := rfl
@[simp] theorem raiseErr_y (e : ErrCode) (st : State) : (raiseErr e st).outputs.y = 0 := rfl
@[simp] theorem raiseErr_s (e : ErrCode) (st : State) : (raiseErr e st).outputs.s = 0 := rfl
@[simp] theorem raiseErr_t (e : ErrCode) (st : State) : (raiseErr e st).outputs.t = false := rfl
@[simp] theorem raiseErr_err (e : ErrCode) (st : State) : (raiseErr e st).outputs.err = errNumber e := rfl
@[simp] theorem raiseErr_einfo (e : ErrCode) (st : State) : (raiseErr e st).outputs.einfo = st.inputs.cmd := rfl
@[simp] theorem raiseErr_wtag (e : ErrCode) (st : State) : (raiseErr e st).outputs.wtag = cmdWsel st.inputs.cmd := rfl

@[simp] theorem withFetchWord_cmd (st : State) (nbits w : Nat) :
    (st.withFetchWord nbits w).inputs.cmd = tableWord nbits w := rfl
@[simp] theorem withFetchWord_outputs (st : State) (nbits w : Nat) :
    (st.withFetchWord nbits w).outputs = st.outputs := rfl

end Sys2Proof.Machine
end

