-- ==== Sys2Proof/Laws/Ops.lean ====
section
/-! SUPPORT. One lemma per shared operation that says once what it can do: the widths, the lanes, the operand checks, the
result ports and the error entry, in the words of Sys2Proof/Safety.lean. -/

namespace Sys2Proof.Machine

open Sys2Proof.Safety

theorem bits_pos (w : Width) : 0 < w.bits := by cases w <;> decide

theorem bits_le (w : Width) : w.bits ≤ 64 := by cases w <;> decide

theorem bits_widthOfWsel (x : BitVec 2) : (widthOfWsel x).bits = 8 <<< x.toNat := by
  revert x; decide

@[simp] theorem getLsbD_operandA (n : Nat) (p : Inputs) (k : Nat) :
    (operandA n p).getLsbD k = (decide (k < n) && p.a.getLsbD k) := by simp [operandA]

@[simp] theorem getLsbD_operandB (n : Nat) (p : Inputs) (k : Nat) :
    (operandB n p).getLsbD k = (decide (k < n) && p.b.getLsbD k) := by simp [operandB]

@[simp] theorem toNat_operandA (n : Nat) (p : Inputs) : (operandA n p).toNat = p.a.toNat % 2 ^ n := by simp [operandA]

@[simp] theorem toNat_operandB (n : Nat) (p : Inputs) : (operandB n p).toNat = p.b.toNat % 2 ^ n := by simp [operandB]

/-- A result of a width at most 64 is on the port unchanged. -/
theorem toNat_zext64 {n : Nat} (h : n ≤ 64) (r : RegVal n) : (zext64 r).toNat = r.toNat := by
  rw [zext64, BitVec.toNat_setWidth, Nat.mod_eq_of_lt]
  exact lt_of_lt_of_le r.isLt (Nat.pow_le_pow_right (by omega) h)

theorem getLsbD_zext64 {n : Nat} (h : n ≤ 64) (r : RegVal n) (k : Nat) : (zext64 r).getLsbD k = r.getLsbD k := by
  rw [← BitVec.testBit_toNat, toNat_zext64 h, BitVec.testBit_toNat]

theorem zext64_lt (w : Width) (r : RegVal w.bits) : (zext64 r).toNat < 2 ^ w.bits := by
  rw [toNat_zext64 (bits_le w)]
  exact r.isLt

/-- What a host gets back when it feeds a result in again at the same width. -/
theorem operandA_zext64 (w : Width) (r : RegVal w.bits) (p : Inputs) (h : p.a = zext64 r) : operandA w.bits p = r := by
  apply BitVec.eq_of_toNat_eq
  rw [toNat_operandA, h, toNat_zext64 (bits_le w), Nat.mod_eq_of_lt r.isLt]

theorem driveY_eq {n : Nat} (r : RegVal n) (st : State) :
    driveY r st = { st with outputs := okY st.inputs (zext64 r) } := rfl

theorem driveS_eq (k : Int) (st : State) : driveS k st = { st with outputs := okS st.inputs (BitVec.ofInt 8 k) } := rfl

theorem driveT_eq (t : Bool) (st : State) : driveT t st = { st with outputs := okT st.inputs t } := rfl

theorem raiseErr_eq (e : ErrCode) (st : State) :
    raiseErr e st = { st with outputs := failed st.inputs (errNumber e) } := rfl

theorem rejectCmd_eq (e : DecodeError) (st : State) : rejectCmd e st = { st with outputs := failed st.inputs 1 } := by
  cases e <;> rfl

/-- A valid descriptor passes the check. -/
theorem descriptorError_of_valid {n : Nat} {start len : Int} (h : ValidField n start len) :
    descriptorError n start len = none := by
  obtain ⟨h1, h2, h3⟩ := h
  rw [descriptorError, if_neg (by omega), if_neg (by omega), if_neg (by omega)]

/-- An invalid descriptor is reported by the first precondition that fails. -/
theorem descriptorError_of_invalid {n : Nat} {start len : Int} (h : ¬ ValidField n start len) :
    ∃ e, descriptorError n start len = some e ∧ errNumber e = fieldCode start len := by
  unfold descriptorError fieldCode
  split
  · exact ⟨_, rfl, rfl⟩
  · split
    · exact ⟨_, rfl, rfl⟩
    · rw [if_pos (by unfold ValidField at h; omega)]
      exact ⟨_, rfl, rfl⟩

theorem indexError_of_valid {n : Nat} {idx : Int} (h : ValidIndex n idx) : indexError n idx = none := by
  rw [indexError, if_neg (by obtain ⟨h1, h2⟩ := h; omega)]

theorem indexError_of_invalid {n : Nat} {idx : Int} (h : ¬ ValidIndex n idx) :
    indexError n idx = some .indexRange := by
  rw [indexError, if_pos (by unfold ValidIndex at h; omega)]

/-- A checked field operation on a valid descriptor delivers. -/
theorem checked_descriptor_of_valid {n : Nat} {start len : Int} (h : ValidField n start len) (st done : State) :
    checked (descriptorError n start len) st done = .next done := by
  rw [descriptorError_of_valid h]
  rfl

/-- A checked field operation on an invalid descriptor fails with its code. -/
theorem checked_descriptor_of_invalid {n : Nat} {start len : Int} (h : ¬ ValidField n start len) (st done : State) :
    checked (descriptorError n start len) st done =
      .next { st with outputs := failed st.inputs (fieldCode start len) } := by
  obtain ⟨e, he, hc⟩ := descriptorError_of_invalid h
  rw [he, ← hc]
  rfl

theorem checked_index_of_valid {n : Nat} {idx : Int} (h : ValidIndex n idx) (st done : State) :
    checked (indexError n idx) st done = .next done := by
  rw [indexError_of_valid h]
  rfl

theorem checked_index_of_invalid {n : Nat} {idx : Int} (h : ¬ ValidIndex n idx) (st done : State) :
    checked (indexError n idx) st done = .next { st with outputs := failed st.inputs 2 } := by
  rw [indexError_of_invalid h]
  rfl

end Sys2Proof.Machine
end

