-- ==== Sys2Proof/Laws/Step.lean ====
section
/-! SUPPORT. What the decoder and the step can do, said once. -/

namespace Sys2Proof.Machine

open Sys2Proof.Safety

theorem s8_eq_toInt (x : BitVec 8) : s8 x = x.toInt := by
  revert x; decide

theorem decode_of_reserved {c : CmdWord} (h : cmdRsv c ≠ 0#2) : decode c = .error .reservedBits := if_neg h

theorem decode_of_rsv_zero {c : CmdWord} (h : cmdRsv c = 0#2) :
    decode c = decodeOp (cmdOp c) (widthOfWsel (cmdWsel c)) (cmdPos c) (cmdLen c) := if_pos h

/-- Only the two unassigned opcodes are rejected by the opcode map. -/
theorem decodeOp_ok_iff (op : BitVec 4) (w : Width) (pos len : BitVec 8) :
    (∃ i, decodeOp op w pos len = .ok i) ↔ op.toNat < 14 := by
  unfold decodeOp
  split <;> simp_all
  omega

/-- The five fields of a packed word (R50). -/
theorem packCmd_toNat (len pos : BitVec 8) (w : Width) (op : Nat) (h : op < 16) :
    (packCmd len pos w op).toNat = len.toNat * 2 ^ 16 + pos.toNat * 2 ^ 8 + w.wsel.toNat * 2 ^ 4 + op := by
  have h1 := len.isLt
  have h2 := pos.isLt
  have h3 := w.wsel.isLt
  rw [packCmd, BitVec.toNat_ofNat, Nat.mod_eq_of_lt (by omega)]

theorem toNat_cmdOp (c : CmdWord) : (cmdOp c).toNat = c.toNat % 16 := by
  simp [cmdOp, BitVec.extractLsb'_toNat]

theorem toNat_cmdWsel (c : CmdWord) : (cmdWsel c).toNat = c.toNat / 16 % 4 := by
  simp [cmdWsel, BitVec.extractLsb'_toNat, Nat.shiftRight_eq_div_pow]

theorem toNat_cmdRsv (c : CmdWord) : (cmdRsv c).toNat = c.toNat / 64 % 4 := by
  simp [cmdRsv, BitVec.extractLsb'_toNat, Nat.shiftRight_eq_div_pow]

theorem toNat_cmdPos (c : CmdWord) : (cmdPos c).toNat = c.toNat / 256 % 256 := by
  simp [cmdPos, BitVec.extractLsb'_toNat, Nat.shiftRight_eq_div_pow]

theorem toNat_cmdLen (c : CmdWord) : (cmdLen c).toNat = c.toNat / 65536 := by
  have := c.isLt
  simp only [cmdLen, BitVec.extractLsb'_toNat, Nat.shiftRight_eq_div_pow]
  omega

theorem packCmd_fields (len pos : BitVec 8) (w : Width) (op : Nat) (h : op < 16) :
    cmdOp (packCmd len pos w op) = BitVec.ofNat 4 op ∧ cmdWsel (packCmd len pos w op) = w.wsel ∧
    cmdRsv (packCmd len pos w op) = 0#2 ∧ cmdPos (packCmd len pos w op) = pos ∧ cmdLen (packCmd len pos w op) = len := by
  have h1 := len.isLt
  have h2 := pos.isLt
  have h3 := w.wsel.isLt
  have hp := packCmd_toNat len pos w op h
  refine ⟨?_, ?_, ?_, ?_, ?_⟩ <;> apply BitVec.eq_of_toNat_eq
  · rw [toNat_cmdOp, BitVec.toNat_ofNat]; omega
  · rw [toNat_cmdWsel]; omega
  · rw [toNat_cmdRsv, BitVec.toNat_ofNat]; omega
  · rw [toNat_cmdPos]; omega
  · rw [toNat_cmdLen]; omega

/-- An operation drives the outputs and nothing else: it completes with the inputs as they were. -/
theorem exec_next (i : Instr) (s : State) : ∃ o, exec i s = .next { s with outputs := o } := by
  have hc : ∀ (e : Option ErrCode) (done : State), (∃ o, done = { s with outputs := o }) →
      ∃ o, checked e s done = .next { s with outputs := o } := by
    rintro (_ | e) done ⟨o, rfl⟩
    · exact ⟨o, rfl⟩
    · exact ⟨_, rfl⟩
  cases i
  case rol => exact ⟨_, rfl⟩
  case ror => exact ⟨_, rfl⟩
  case popc => exact ⟨_, rfl⟩
  case par => exact ⟨_, rfl⟩
  case fsb => exact ⟨_, rfl⟩
  case isp2 => exact ⟨_, rfl⟩
  all_goals exact hc _ _ ⟨_, rfl⟩

/-- A step either runs the decoded operation or rejects the word with error 1. -/
theorem step_cases (s : State) :
    (∃ i, decode s.inputs.cmd = .ok i ∧ step s = exec i s) ∨
    (∃ e, decode s.inputs.cmd = .error e ∧ step s = .next { s with outputs := failed s.inputs 1 }) := by
  unfold step
  rw [presentedCmd_eq]
  cases h : decode s.inputs.cmd with
  | ok i => exact .inl ⟨i, rfl, rfl⟩
  | error e => exact .inr ⟨e, rfl, congrArg Host.Outcome.next (rejectCmd_eq e s)⟩

end Sys2Proof.Machine
end

