-- ==== Sys2Proof/Laws/PerInstr.lean ====
section
/-! SUPPORT. Statements made per instruction. Family EncodeRow: the canonical word of an instruction matches its own row of
spec/opcode_table.json, that is, under the mask 0x0000CF (opcode and reserved bits) it is the row's match (30_encoding.md R61). -/

namespace Sys2Proof.Laws

open Sys2Proof

/-- The `match` of the opcode-table row of each operation, from R52 and R61. -/
def rowMatch : Instr → CmdWord
  | .fmask _ _ _ => 0x000000#24
  | .imask _ _ _ => 0x000001#24
  | .rdf _ _ _ => 0x000002#24
  | .wrf _ _ _ => 0x000003#24
  | .setb _ _ => 0x000004#24
  | .clrb _ _ => 0x000005#24
  | .tglb _ _ => 0x000006#24
  | .tstb _ _ => 0x000007#24
  | .rol _ _ => 0x000008#24
  | .ror _ _ => 0x000009#24
  | .popc _ => 0x00000A#24
  | .par _ => 0x00000B#24
  | .fsb _ => 0x00000C#24
  | .isp2 _ => 0x00000D#24

/-- The word of an instruction, whatever its operands, selects its own row. -/
def EncodeRow.Statement (i : Instr) : Prop := encode i &&& 0x0000CF#24 = rowMatch i

/-- Under the mask of the opcode table a word is its reserved bits and its opcode. -/
theorem and_rowMask (c : CmdWord) (h : cmdRsv c = 0#2) : c &&& 0x0000CF#24 = (cmdOp c).setWidth 24 := by
  have h6 : getElem c 6 (by omega) = false := by simpa [cmdRsv] using congrArg (fun x => x.getLsbD 0) h
  have h7 : getElem c 7 (by omega) = false := by simpa [cmdRsv] using congrArg (fun x => x.getLsbD 1) h
  apply BitVec.eq_of_getLsbD_eq
  intro i hi
  interval_cases i <;> simp [cmdOp, h6, h7]

theorem packCmd_row (len pos : BitVec 8) (w : Width) (op : Nat) (h : op < 16) :
    packCmd len pos w op &&& 0x0000CF#24 = BitVec.ofNat 24 op := by
  obtain ⟨h1, -, h3, -, -⟩ := Machine.packCmd_fields len pos w op h
  rw [and_rowMask _ h3, h1]
  apply BitVec.eq_of_toNat_eq
  simp only [BitVec.toNat_setWidth, BitVec.toNat_ofNat]
  omega

theorem EncodeRow.fmask (w : Width) (len start : Int) : EncodeRow.Statement (.fmask w len start) :=
  packCmd_row _ _ _ _ (by decide)

theorem EncodeRow.imask (w : Width) (len start : Int) : EncodeRow.Statement (.imask w len start) :=
  packCmd_row _ _ _ _ (by decide)

theorem EncodeRow.rdf (w : Width) (start len : Int) : EncodeRow.Statement (.rdf w start len) :=
  packCmd_row _ _ _ _ (by decide)

theorem EncodeRow.wrf (w : Width) (start len : Int) : EncodeRow.Statement (.wrf w start len) :=
  packCmd_row _ _ _ _ (by decide)

theorem EncodeRow.setb (w : Width) (idx : Int) : EncodeRow.Statement (.setb w idx) := packCmd_row _ _ _ _ (by decide)

theorem EncodeRow.clrb (w : Width) (idx : Int) : EncodeRow.Statement (.clrb w idx) := packCmd_row _ _ _ _ (by decide)

theorem EncodeRow.tglb (w : Width) (idx : Int) : EncodeRow.Statement (.tglb w idx) := packCmd_row _ _ _ _ (by decide)

theorem EncodeRow.tstb (w : Width) (idx : Int) : EncodeRow.Statement (.tstb w idx) := packCmd_row _ _ _ _ (by decide)

theorem EncodeRow.rol (w : Width) (shift : Nat) : EncodeRow.Statement (.rol w shift) := packCmd_row _ _ _ _ (by decide)

theorem EncodeRow.ror (w : Width) (shift : Nat) : EncodeRow.Statement (.ror w shift) := packCmd_row _ _ _ _ (by decide)

theorem EncodeRow.popc (w : Width) : EncodeRow.Statement (.popc w) := packCmd_row _ _ _ _ (by decide)

theorem EncodeRow.par (w : Width) : EncodeRow.Statement (.par w) := packCmd_row _ _ _ _ (by decide)

theorem EncodeRow.fsb (w : Width) : EncodeRow.Statement (.fsb w) := packCmd_row _ _ _ _ (by decide)

theorem EncodeRow.isp2 (w : Width) : EncodeRow.Statement (.isp2 w) := packCmd_row _ _ _ _ (by decide)

end Sys2Proof.Laws
end

