-- ==== Sys2Proof/Tests/Slice0.lean ====
section
/-! SUPPORT. Tests. The words are written out from 30_encoding.md R50 and R52, byte by byte as LEN, POS, control; the expected
outputs are rows of spec/95_test_vectors.md, whose name each test cites. The witnesses at the end meet the hypotheses of
the statements, one theorem a statement. -/

namespace Sys2Proof.Tests

open Sys2Proof Sys2Proof.Machine Sys2Proof.Safety

/-- The ports with these inputs, after some earlier transaction whose outputs are still shown. -/
def ports (cmd : CmdWord) (a b : PortWord) : State :=
  { inputs := { cmd := cmd, a := a, b := b }
    outputs := { y := 0x77, s := 0x12, t := true, err := 5, einfo := 0xABCDEF, wtag := 2 } }

/-- The outputs of an outcome. -/
def shown : Host.Outcome State Fault Refusal → Option Outputs
  | .next s => some s.outputs
  | .fault _ => none
  | .refused _ => none

/-- The outputs of the one transaction. -/
def result (cmd : CmdWord) (a b : PortWord) : Option Outputs := shown (step (ports cmd a b))

/-- A row of the vectors with its result on `Y`. -/
def rowY (y : PortWord) (wtag : BitVec 2) : Option Outputs :=
  some { y := y, s := 0, t := false, err := 0, einfo := 0, wtag := wtag }

/-- A row with its result on `S`. -/
def rowS (k : BitVec 8) (wtag : BitVec 2) : Option Outputs :=
  some { y := 0, s := k, t := false, err := 0, einfo := 0, wtag := wtag }

/-- A row with its result on `T`. -/
def rowT (t : Bool) (wtag : BitVec 2) : Option Outputs :=
  some { y := 0, s := 0, t := t, err := 0, einfo := 0, wtag := wtag }

/-- A row that reports an error. -/
def rowErr (err : BitVec 3) (einfo : CmdWord) (wtag : BitVec 2) : Option Outputs :=
  some { y := 0, s := 0, t := false, err := err, einfo := einfo, wtag := wtag }

/-- What the decoder reads, if it is an operation. -/
def decoded (c : CmdWord) : Option Instr := decodeTableWord 24 c.toNat

/-! ## WellFormed: the ends of each range, and a term outside it that the check refuses -/

theorem test_signedByte_refuses_below : signedByte (-128) = true ∧ signedByte (-129) = false := by decide
theorem test_signedByte_refuses_above : signedByte 127 = true ∧ signedByte 128 = false := by decide
theorem test_unsignedByte_refuses_above : unsignedByte 255 = true ∧ unsignedByte 256 = false := by decide
theorem test_wellFormed_fmask : (Instr.fmask .n8 (-128) 127).wellFormed = true ∧
    (Instr.fmask .n8 128 0).wellFormed = false ∧ (Instr.fmask .n8 0 (-129)).wellFormed = false := by decide
theorem test_wellFormed_imask : (Instr.imask .n8 127 (-128)).wellFormed = true ∧
    (Instr.imask .n8 (-129) 0).wellFormed = false ∧ (Instr.imask .n8 0 128).wellFormed = false := by decide
theorem test_wellFormed_rdf : (Instr.rdf .n64 127 (-128)).wellFormed = true ∧
    (Instr.rdf .n64 128 0).wellFormed = false ∧ (Instr.rdf .n64 0 (-129)).wellFormed = false := by decide
theorem test_wellFormed_wrf : (Instr.wrf .n64 (-128) 127).wellFormed = true ∧
    (Instr.wrf .n64 (-129) 0).wellFormed = false ∧ (Instr.wrf .n64 0 128).wellFormed = false := by decide
theorem test_wellFormed_bits : (Instr.setb .n16 128).wellFormed = false ∧ (Instr.clrb .n16 (-129)).wellFormed = false ∧
    (Instr.tglb .n16 200).wellFormed = false ∧ (Instr.tstb .n16 255).wellFormed = false ∧
    (Instr.tstb .n16 (-1)).wellFormed = true := by decide
theorem test_wellFormed_rotations : (Instr.rol .n32 255).wellFormed = true ∧ (Instr.rol .n32 256).wellFormed = false ∧
    (Instr.ror .n32 300).wellFormed = false := by decide

/-! ## Decoding: every constructor, from its word -/

/-- R60's example: 0x050412 is `RDF.16 a, 4, 5`, and back. -/
theorem test_decode_rdf : decoded 0b000001010000010000010010#24 = some (.rdf .n16 4 5) ∧
    encode (.rdf .n16 4 5) = 0x050412#24 := by decide
/-- Vectors M3 (`FMASK.8 3, 2`) and M36 (`FMASK.8 -1, 3`). -/
theorem test_decode_fmask : decoded 0b000000110000001000000000#24 = some (.fmask .n8 3 2) ∧
    decoded 0xFF0300#24 = some (.fmask .n8 (-1) 3) := by decide
/-- Vectors M16 (`IMASK.32 8, 24`) and M42 (`IMASK.16 0, -128`). -/
theorem test_decode_imask : decoded 0b000010000001100000100001#24 = some (.imask .n32 8 24) ∧
    decoded 0x008011#24 = some (.imask .n16 0 (-128)) := by decide
/-- Vector F21 (`WRF.64 a, 60, 4, b`). -/
theorem test_decode_wrf : decoded 0b000001000011110000110011#24 = some (.wrf .n64 60 4) := by decide
/-- `SETB.8 a, 1`. -/
theorem test_decode_setb : decoded 0b000000000000000100000100#24 = some (.setb .n8 1) := by decide
/-- Vector B14 (`CLRB.32 a, 32`): out of range, but a legal word. -/
theorem test_decode_clrb : decoded 0b000000000010000000100101#24 = some (.clrb .n32 32) := by decide
/-- Vector B17 (`TGLB.16 a, 16`). -/
theorem test_decode_tglb : decoded 0b000000000001000000010110#24 = some (.tglb .n16 16) := by decide
/-- Vector B23 (`TSTB.8 a, -128`). -/
theorem test_decode_tstb : decoded 0b000000001000000000000111#24 = some (.tstb .n8 (-128)) := by decide
/-- Vector T24 (`ROL.32 a, 248`): the amount is unsigned. -/
theorem test_decode_rol : decoded 0b000000001111100000101000#24 = some (.rol .n32 248) := by decide
/-- Vector T8 (`ROR.64 a, 255`). -/
theorem test_decode_ror : decoded 0b000000001111111100111001#24 = some (.ror .n64 255) := by decide
/-- Vector A81: POPC ignores LEN and POS (R56). -/
theorem test_decode_popc : decoded 0b001101000001001000111010#24 = some (.popc .n64) := by decide
/-- Vector A34 (`PAR.16 a`). -/
theorem test_decode_par : decoded 0b000000000000000000011011#24 = some (.par .n16) := by decide
/-- Vector A47 (`FSB.32 a`). -/
theorem test_decode_fsb : decoded 0b000000000000000000101100#24 = some (.fsb .n32) := by decide
/-- Vector A4 (`ISP2.8 a`). -/
theorem test_decode_isp2 : decoded 0b000000000000000000001101#24 = some (.isp2 .n8) := by decide
/-- Vectors X1 to X8: illegal words, with the reason the decoder names. -/
theorem test_decode_refuses : decode 0x00000E#24 = .error .unassignedOpcode ∧
    decode 0x00000F#24 = .error .unassignedOpcode ∧ decode 0x000042#24 = .error .reservedBits ∧
    decode 0x000082#24 = .error .reservedBits ∧ decode 0x0504D2#24 = .error .reservedBits ∧
    decode 0xFFFFFF#24 = .error .reservedBits := by decide

/-! ## One transaction: at most two tests an operation -/

/-- Vectors M19, M23. -/
theorem test_fmask_full_and_top : result 0x400030 0 0 = rowY 0xFFFFFFFFFFFFFFFF 3 ∧
    result 0x043C30 0 0 = rowY 0xF000000000000000 3 := by decide
/-- Vectors M31, M36, M37: the sum is over N; a negative length; both negative. -/
theorem test_fmask_errors : result 0x040500 0 0 = rowErr 5 0x040500 0 ∧ result 0xFF0300 0 0 = rowErr 4 0xFF0300 0 ∧
    result 0x808000 0 0 = rowErr 3 0x808000 0 := by decide
/-- Vectors M4, M26. -/
theorem test_imask_middle_and_empty_top : result 0x030201 0 0 = rowY 0xE3 0 ∧
    result 0x004031 0 0 = rowY 0xFFFFFFFFFFFFFFFF 3 := by decide
/-- Vector M42. -/
theorem test_imask_negative_start : result 0x008011 0 0 = rowErr 3 0x008011 1 := by decide
/-- Vectors F1 (W1), F10: the worked example; the lanes above N are ignored. -/
theorem test_rdf_worked : result 0x050412 0xD6A1 0 = rowY 0x000A 1 ∧ result 0x080002 0xFFFFFFFFFFFFFFA5 0 = rowY 0xA5 0 := by
  decide
/-- Vectors F11, F12, F13. -/
theorem test_rdf_errors : result 0x050402 0xA5 0 = rowErr 5 0x050402 0 ∧ result 0x01FF02 0xA5 0 = rowErr 3 0x01FF02 0 ∧
    result 0xFF0102 0xA5 0 = rowErr 4 0xFF0102 0 := by decide
/-- Vectors F14 (W2), F16: the worked example; an overflowing new value is truncated. -/
theorem test_wrf_worked : result 0x050413 0xD6A1 0x1F = rowY 0xD7F1 1 ∧ result 0x050413 0xD6A1 0x20 = rowY 0xD601 1 := by decide
/-- Vectors F18, F21: the empty field at the top; the field at the top of 64 bits. -/
theorem test_wrf_edges : result 0x000803 0xA5 0xFF = rowY 0xA5 0 ∧ result 0x043C33 0 0xF5 = rowY 0x5000000000000000 3 := by decide
/-- Vectors B4, B3: LEN is ignored; the top bit. -/
theorem test_setb : result 0x770304 0xA5 0 = rowY 0xAD 0 ∧ result 0x000F14 0 0 = rowY 0x8000 1 := by decide
/-- Vectors B5, B6: index N and index -1 are errors, not bit 0 and bit 7. -/
theorem test_setb_errors : result 0x000804 0xA5 0 = rowErr 2 0x000804 0 ∧ result 0x00FF04 0xA5 0 = rowErr 2 0x00FF04 0 := by
  decide
/-- Vectors B11, B12: the bit is clear already; the top bit of 64. -/
theorem test_clrb : result 0x000105 0xA5 0 = rowY 0xA5 0 ∧ result 0x003F35 0x800000000000000F 0 = rowY 0xF 3 := by decide
/-- Vector B14. -/
theorem test_clrb_error : result 0x002025 0xFFFFFFFF 0 = rowErr 2 0x002025 2 := by decide
/-- Vectors B15, B16: a one and a zero are toggled. -/
theorem test_tglb : result 0x000706 0xA5 0 = rowY 0x25 0 ∧ result 0x000106 0xA5 0 = rowY 0xA7 0 := by decide
/-- Vector B17. -/
theorem test_tglb_error : result 0x001016 0xD6A1 0 = rowErr 2 0x001016 1 := by decide
/-- Vectors B18, B19, B22. -/
theorem test_tstb : result 0x000007 0xA5 0 = rowT true 0 ∧ result 0x000107 0xA5 0 = rowT false 0 ∧
    result 0x003F37 0x800000000000000F 0 = rowT true 3 := by decide
/-- Vectors B21, B23. -/
theorem test_tstb_errors : result 0x000807 0xA5 0 = rowErr 2 0x000807 0 ∧ result 0x008007 0x1A5 0 = rowErr 2 0x008007 0 := by
  decide
/-- Vectors T1 (W4), T24: the worked example; an amount of 248 is 24 at N = 32. -/
theorem test_rol : result 0x000438 0x800000000000000F 0 = rowY 0xF8 3 ∧
    result 0x00F828 0xDEADBEEF 0 = rowY 0xEFDEADBE 2 := by decide
/-- Vectors T2, T17: the full width is no change; the lanes above N do not rotate in. -/
theorem test_rol_edges : result 0x004038 0x800000000000000F 0 = rowY 0x800000000000000F 3 ∧
    result 0x000408 0x1A5 0 = rowY 0x5A 0 := by decide
/-- Vectors T7, T8. -/
theorem test_ror : result 0x000439 0x800000000000000F 0 = rowY 0xF800000000000000 3 ∧
    result 0x00FF39 0x800000000000000F 0 = rowY 0x1F 3 := by decide
/-- Vectors T16, T21. -/
theorem test_ror_small : result 0x000709 0x81 0 = rowY 0x3 0 ∧ result 0x000419 0xD6A1 0 = rowY 0x1D6A 1 := by decide
/-- Vectors A57 (W3), A65: the worked example; the greatest count. -/
theorem test_popc : result 0x00003A 0x800000000000000F 0 = rowS 5 3 ∧
    result 0x00003A 0xFFFFFFFFFFFFFFFF 0 = rowS 0x40 3 := by decide
/-- Vectors A25, A29: the lanes above N are not counted. -/
theorem test_popc_lanes : result 0x00000A 0x1A5 0 = rowS 4 0 ∧ result 0x00000A 0x100 0 = rowS 0 0 := by decide
/-- Vectors A58, A26. -/
theorem test_par : result 0x00003B 0x800000000000000F 0 = rowT true 3 ∧ result 0x00000B 0x1A5 0 = rowT false 0 := by decide
/-- Vectors A75, A19: the top bit; the least of three. -/
theorem test_fsb : result 0x00003C 0x8000000000000000 0 = rowS 0x3F 3 ∧ result 0x00000C 0x2C 0 = rowS 2 0 := by decide
/-- Vectors A79, A31: the sentinel is no error. -/
theorem test_fsb_sentinel : result 0x00003C 0 0 = rowS 0xFF 3 ∧ result 0x00000C 0x100 0 = rowS 0xFF 0 := by decide
/-- Vectors A76, A44. -/
theorem test_isp2 : result 0x00003D 0x8000000000000000 0 = rowT true 3 ∧ result 0x00001D 0x8000 0 = rowT true 1 := by decide
/-- Vectors A4, A24, A32: zero and three are none, and 0x100 is zero at N = 8. -/
theorem test_isp2_none : result 0x00000D 0 0 = rowT false 0 ∧ result 0x00000D 3 0 = rowT false 0 ∧
    result 0x00000D 0x100 0 = rowT false 0 := by decide
/-- Vectors X1, X5, X6, X8. -/
theorem test_illegal_words : result 0x00000E 0xA5 0 = rowErr 1 0x00000E 0 ∧ result 0x0504D2 0xD6A1 0 = rowErr 1 0x0504D2 1 ∧
    result 0xFFFFFF 0xFFFFFFFFFFFFFFFF 0 = rowErr 1 0xFFFFFF 3 ∧ result 0x0000CE 0 0 = rowErr 1 0x0000CE 0 := by decide
/-- The integer form of the block gives the same rows (vectors F22, T24, A61). -/
theorem test_reference_rows :
    some (Reference.block ⟨0x100823, 0xDEADBEEF, 0x12345⟩) = rowY 0xDE2345EF 2 ∧
    some (Reference.block ⟨0x00F828, 0xDEADBEEF, 0⟩) = rowY 0xEFDEADBE 2 ∧
    some (Reference.block ⟨0x00003A, 0x7FFFFFFFFFFFFFF0, 0⟩) = rowS 0x3B 3 := by decide
/-- A word presented after reset is the one that runs (vector M3, with A and B not read). -/
theorem test_presented_word_runs : shown (step (State.reset.withFetchWord 24 0x030200)) = rowY 0x1C 0 := by decide
/-- What a host reads: the failure of B21 is not "bit clear" (I2), and 0xFF on S is the scalar -1 (R120). -/
theorem test_host_reads :
    (result 0x000807 0xA5 0).map (hostReads .tClass) = some (.failed 2 0x000807) ∧
    (result 0x000107 0xA5 0).map (hostReads .tClass) = some (.truth false) ∧
    (result 0x00003C 0 0).map (hostReads .sClass) = some (.scalar (-1)) ∧
    (result 0x050412 0xD6A1 0).map (hostReads .yClass) = some (.register .n16 0x000A) := by decide
/-- Two steps of program P3 of the vectors (3a, 3b): a failed or stale transaction before plays no part. -/
theorem test_run_of_two :
    (runTransactions [⟨0x00000C, 0x20, 0⟩, ⟨0x000505, 0x20, 0⟩] (ports 0xFFFFFF 1 2)).map
      (fun r => r.1.map fun o => (o.y, o.s, o.err)) = some [(0, 5, 0), (0, 0, 0)] := by decide

/-! ## Witnesses: for each statement with hypotheses, inputs that meet them, at the ends of each range -/

/-- A word with opcode `op` and reserved bits 00, the hypotheses of `EncodedAs`. -/
abbrev HasOp (c : CmdWord) (op : BitVec 4) : Prop := c.extractLsb' 6 2 = 0#2 ∧ c.extractLsb' 0 4 = op

theorem test_witness_FieldsAreReadByOpcode :
    HasOp 0x030200 0 ∧ HasOp 0x030201 1 ∧ HasOp 0x050412 2 ∧ HasOp 0x050413 3 ∧ HasOp 0x000104 4 ∧ HasOp 0x00FF15 5 ∧
    HasOp 0x000706 6 ∧ HasOp 0x003F37 7 ∧ HasOp 0x000438 8 ∧ HasOp 0x00FF39 9 ∧ HasOp 0x34123A 10 ∧ HasOp 0x00003B 11 ∧
    HasOp 0x00001C 12 ∧ HasOp 0x00000D 13 ∧ (0 < 4 ∧ 3 < 4) ∧
    (byteOf (-128)).toInt = -128 ∧ (byteOf 127).toInt = 127 := by decide
theorem test_witness_IllegalWordsAreCounted :
    IllegalWord (ports 0x000040 0 0).inputs.cmd ∧ IllegalWord (ports 0x00000E 0 0).inputs.cmd ∧
    IllegalWord (ports 0x00000F 0 0).inputs.cmd ∧ ¬ IllegalWord (ports 0x00000D 0 0).inputs.cmd ∧
    result 0x090000 0 0 = rowErr 5 0x090000 0 ∧ result 0x000804 0 0 = rowErr 2 0x000804 0 := by decide
theorem test_witness_EveryWordIsDefined :
    (ports 0x000000 1 2).inputs.cmd = 0x000000#24 ∧ result 0x000000 1 2 = rowY 0 0 ∧
    (ports 0xFFFFFF 1 2).inputs.cmd = 0xFFFFFF#24 ∧ result 0xFFFFFF 1 2 = rowErr 1 0xFFFFFF 3 := by decide
theorem test_witness_DecodeEncodeAgree :
    (Instr.wrf .n32 (-128) 127).wellFormed = true ∧ decoded (encode (.wrf .n32 (-128) 127)) = some (.wrf .n32 (-128) 127) ∧
    (Instr.ror .n64 255).wellFormed = true ∧ decoded (encode (.ror .n64 255)) = some (.ror .n64 255) ∧
    decoded 0x34123A = some (.popc .n64) ∧ encode (.popc .n64) = 0x00003A#24 ∧
    decoded 0x770304 = some (.setb .n8 3) ∧ encode (.setb .n8 3) = 0x000304#24 ∧
    (byteOf (-128)).toNat = 0x80 ∧ (byteOf (-1)).toNat = 0xFF := by decide
theorem test_witness_OpcodeTableRowsSelect :
    0x34123A#24 &&& 0x0000CF#24 = BitVec.ofNat 24 10 ∧ decoded 0x34123A = some (.popc .n64) ∧
    (∀ k < 14, 0x00000E#24 &&& 0x0000CF#24 ≠ BitVec.ofNat 24 k) ∧
    (∀ k < 14, 0x000040#24 &&& 0x0000CF#24 ≠ BitVec.ofNat 24 k) := by decide
/-- Two words that differ in WSEL, LEN and POS, legal and illegal alike; at N = 16 the ports differ above bit 15 only. -/
theorem test_witness_WselSelectsTheWidth :
    (0x050412#24).extractLsb' 0 4 = (0x770022#24).extractLsb' 0 4 ∧ (0x050412#24).extractLsb' 6 2 = (0x770022#24).extractLsb' 6 2 ∧
    decoded 0x050412 = some (.rdf .n16 4 5) ∧ decoded 0x770022 = some (.rdf .n32 0 119) ∧
    decoded 0x00000E = none ∧ decoded 0x00003E = none ∧
    (0x1D6A1#64).toNat % 2 ^ cmdBits 0x050412 = (0xD6A1#64).toNat % 2 ^ cmdBits 0x050412 ∧
    result 0x050412 0x1D6A1 0 = rowY 0x000A 1 := by decide
/-- POPC with other `LEN`, `POS` and `B` (vector A81 beside A57's word), and a failing SETB with another `LEN`. -/
theorem test_witness_UnreadInputsAreIgnored :
    SameReadInputs (ports 0x34123A 0xF8 1).inputs (ports 0x00003A 0xF8 2).inputs ∧
    result 0x34123A 0xF8 1 = rowS 5 3 ∧ result 0x00003A 0xF8 2 = rowS 5 3 ∧
    SameReadInputs (ports 0x770804 0xA5 1).inputs (ports 0x000804 0xA5 2).inputs ∧
    result 0x770804 0xA5 1 = rowErr 2 0x770804 0 ∧ result 0x000804 0xA5 2 = rowErr 2 0x000804 0 := by
  refine ⟨?_, by decide, by decide, ?_, by decide, by decide⟩
  · exact ⟨⟨by decide, by decide, by decide⟩, by decide, by decide⟩
  · exact ⟨⟨by decide, by decide, by decide⟩, by decide, by decide⟩
theorem test_witness_StepRunsTheDecodedInstruction :
    decodeTableWord 24 (ports 0x050412 0xD6A1 0).inputs.cmd.toNat = some (.rdf .n16 4 5) ∧
    shown (exec (.rdf .n16 4 5) (ports 0x050412 0xD6A1 0)) = rowY 0x000A 1 := by decide
theorem test_witness_PresentedWordRunsAfterReset :
    decodeTableWord 24 0x003F37 = some (.tstb .n64 63) ∧ decodeTableWord 24 0 = some (.fmask .n8 0 0) := by decide
theorem test_witness_TransactionsAreIndependent :
    [(⟨0x030200, 0, 0⟩ : Inputs), ⟨0xFFFFFF, 1, 2⟩].Perm [⟨0xFFFFFF, 1, 2⟩, ⟨0x030200, 0, 0⟩] := by decide
/-- At N = 8 the ports differ above bit 7 only; at N = 64 nothing may differ. -/
theorem test_witness_UpperInputLanesAreIgnored :
    cmdBits 0x00000A = 8 ∧ (0x1A5#64).toNat % 2 ^ cmdBits 0x00000A = (0xA5#64).toNat % 2 ^ cmdBits 0x00000A ∧
    (0x100#64).toNat % 2 ^ cmdBits 0x00000A = (0#64).toNat % 2 ^ cmdBits 0x00000A ∧
    cmdBits 0x00003A = 64 ∧ (0x1A5#64).toNat % 2 ^ cmdBits 0x00003A ≠ (0xA5#64).toNat % 2 ^ cmdBits 0x00003A := by decide
/-- A result of width 16 used at 16, 32 and 8: only the last may lose bits. -/
theorem test_witness_MixedWidthOperandsAreTruncated :
    cmdBits 0x050413 ≤ cmdBits 0x00001A ∧ cmdBits 0x050413 ≤ cmdBits 0x00002A ∧ ¬ cmdBits 0x050413 ≤ cmdBits 0x00000A ∧
    result 0x00000A 0xD7F1 0 = result 0x00000A 0xF1 0 := by decide
theorem test_witness_RightAlignedMask :
    0 ≤ Width.bits .n8 ∧ 0 < Width.bits .n8 ∧ 7 < Width.bits .n8 ∧ 8 = Width.bits .n8 ∧ 63 < Width.bits .n64 ∧
    64 = Width.bits .n64 ∧ fwdMask 8 7 = 0x7F#8 := by decide

/-- Valid descriptors at the ends of their range, at every width: empty at 0, full, empty at N, the top bit. -/
theorem test_witness_valid_fields (w : Width) : ValidField w.bits 0 0 ∧ ValidField w.bits 0 w.bits ∧
    ValidField w.bits w.bits 0 ∧ ValidField w.bits (w.bits - 1) 1 := by
  cases w <;> decide
/-- Invalid descriptors, one past each end, with the code of each: both are negative in the last. -/
theorem test_witness_invalid_fields (w : Width) : (¬ ValidField w.bits (-1) 0 ∧ fieldCode (-1) 0 = 3) ∧
    (¬ ValidField w.bits 0 (-1) ∧ fieldCode 0 (-1) = 4) ∧ (¬ ValidField w.bits 1 w.bits ∧ fieldCode 1 w.bits = 5) ∧
    (¬ ValidField w.bits (w.bits + 1) 0 ∧ fieldCode (w.bits + 1) 0 = 5) ∧
    (¬ ValidField w.bits (-1) (-1) ∧ fieldCode (-1) (-1) = 3) := by
  cases w <;> decide
/-- Indices at both ends of their range, and one past each. -/
theorem test_witness_indices (w : Width) : ValidIndex w.bits 0 ∧ ValidIndex w.bits (w.bits - 1) ∧
    ¬ ValidIndex w.bits (-1) ∧ ¬ ValidIndex w.bits w.bits := by
  cases w <;> decide

theorem test_witness_FmaskDeliversForwardMask : HasOp 0x050410 0 ∧ ValidField 8 8 0 ∧ ValidField 8 0 8 ∧
    ¬ ValidField 8 1 8 ∧ ¬ ValidField 8 (-1) 8 ∧ ¬ ValidField 8 8 (-1) ∧ result 0x050410 0 0 = rowY 0x01F0 1 := by decide
theorem test_witness_ImaskDeliversInverseMask : HasOp 0x050411 1 ∧ ValidField 16 16 0 ∧ ValidField 16 0 16 ∧
    ¬ ValidField 16 1 16 ∧ ¬ ValidField 16 (-1) 16 ∧ ¬ ValidField 16 16 (-1) ∧
    result 0x000001 0 0 = rowY 0xFF 0 ∧ result 0x050411 0 0 = rowY 0xFE0F 1 := by decide
theorem test_witness_DescriptorsAreCheckedNotClamped :
    ((-1 : Int) < 0 ∧ ((0 : Int) ≤ 0 ∧ (-1 : Int) < 0) ∧ ((0 : Int) ≤ 9 ∧ (0 : Int) ≤ 0 ∧ (8 : Int) < 9 + 0)) ∧
    ValidField 8 8 0 ∧ result 0x000903 7 7 = rowErr 5 0x000903 0 := by decide
theorem test_witness_MaskLaws : ValidField 64 64 0 ∧ ValidField 64 0 64 ∧ ValidField 64 60 4 ∧
    shown (exec (.fmask .n64 4 60) (ports 0x043C30 0 0)) = rowY 0xF000000000000000 3 := by decide
theorem test_witness_RdfDeliversTheField : HasOp 0x050412 2 ∧ ValidField 16 4 5 ∧ ValidField 16 16 0 ∧ ¬ ValidField 16 4 13 ∧
    ¬ ValidField 16 (-1) 5 ∧ ¬ ValidField 16 5 (-1) ∧
    result 0x080002 0xFFFFFFFFFFFFFFA5 3 = rowY 0xA5 0 ∧ result 0x050412 0xD6A1 3 = rowY 0x000A 1 := by decide
theorem test_witness_WrfReplacesTheField : HasOp 0x050413 3 ∧ ValidField 16 4 5 ∧ ValidField 16 16 0 ∧ ¬ ValidField 16 4 13 ∧
    ¬ ValidField 16 (-1) 5 ∧ ¬ ValidField 16 5 (-1) ∧ ((4 : Int) ≤ (8 : Nat) ∧ ((8 : Nat) : Int) < 4 + 5) ∧
    result 0x050413 0xD6A1 0x1F = rowY 0xD7F1 1 ∧ result 0x050413 0xD6A1 0x20 = rowY 0xD601 1 := by decide
theorem test_witness_FieldRoundTrip : ValidField 16 4 5 ∧ (0x1F#64).toNat < 2 ^ (5 : Int).toNat ∧
    ¬ (0x20#64).toNat < 2 ^ (5 : Int).toNat ∧ result 0x050412 0xD7F1 0 = rowY 0x1F 1 := by decide
theorem test_witness_FieldLaws : ValidField 16 4 5 ∧ ValidField 16 0 16 ∧ ValidField 16 16 0 ∧
    result 0x050413 0xD7F1 0xA = rowY 0xD6A1 1 := by decide
theorem test_witness_SetbSetsOneBit : HasOp 0x000104 4 ∧ ValidIndex 8 7 ∧ ValidIndex 8 0 ∧ ¬ ValidIndex 8 8 ∧
    ¬ ValidIndex 8 (-1) ∧ result 0x000104 0xA5 9 = rowY 0xA7 0 := by decide
theorem test_witness_ClrbClearsOneBit : HasOp 0x000005 5 ∧ ValidIndex 32 31 ∧ ValidIndex 32 0 ∧ ¬ ValidIndex 32 32 ∧
    ¬ ValidIndex 32 (-1) ∧ result 0x000005 0xA5 9 = rowY 0xA4 0 := by decide
theorem test_witness_TglbTogglesOneBit : HasOp 0x000706 6 ∧ ValidIndex 16 15 ∧ ValidIndex 16 0 ∧ ¬ ValidIndex 16 16 ∧
    ¬ ValidIndex 16 (-1) ∧ result 0x000706 0xA5 9 = rowY 0x25 0 := by decide
theorem test_witness_TstbTestsOneBit : HasOp 0x000007 7 ∧ ValidIndex 64 63 ∧ ValidIndex 64 0 ∧ ¬ ValidIndex 64 64 ∧
    ¬ ValidIndex 64 (-1) ∧ result 0x000007 0xA5 9 = rowT true 0 ∧ result 0x000107 0xA5 9 = rowT false 0 := by decide
/-- Opcodes 4 and 7 with another `LEN` and another `B`; index N - 1, N and -1. -/
theorem test_witness_IndicesAreCheckedNotReduced :
    ((0x770304#24).extractLsb' 0 8).toNat % 16 / 4 = 1 ∧ ((0x000707#24).extractLsb' 0 8).toNat % 16 / 4 = 1 ∧
    ((0x770803#24).extractLsb' 0 8).toNat % 16 / 4 ≠ 1 ∧ ((0x770808#24).extractLsb' 0 8).toNat % 16 / 4 ≠ 1 ∧
    (0x770304#24).extractLsb' 0 16 = (0x000304#24).extractLsb' 0 16 ∧
    result 0x770304 0xA5 1 = result 0x000304 0xA5 2 ∧ (8 : Int) ≤ 8 ∧ ValidIndex 8 7 ∧ (-1 : Int) < 0 := by decide
theorem test_witness_SingleBitIsFieldOfLengthOne : ValidIndex 8 7 ∧ ¬ ValidIndex 8 8 ∧ ¬ ValidIndex 8 (-1) ∧
    shown (exec (.wrf .n8 8 1) (ports 0x010803 0xA5 1)) = rowErr 5 0x010803 0 ∧
    shown (exec (.setb .n8 8) (ports 0x000804 0xA5 1)) = rowErr 2 0x000804 0 := by decide
theorem test_witness_SingleBitLaws : ValidIndex 8 0 ∧ ValidIndex 8 7 ∧ 3 < Width.bits .n8 ∧ ((3 : Nat) : Int) ≠ 7 := by decide
theorem test_witness_RotationAmountIsReduced :
    HasOp 0x000438 8 ∧ (0x8#4).toNat / 2 = 4 ∧ HasOp 0x000439 9 ∧ (0x9#4).toNat / 2 = 4 ∧
    (0x000438#24).extractLsb' 0 16 = (0x770438#24).extractLsb' 0 16 ∧
    result 0x770438 0x800000000000000F 5 = rowY 0xF8 3 ∧ 0 < 4 ∧ 3 < 4 ∧ (0xFF#8).toNat % (8 <<< 3) = 63 ∧
    (BitVec.ofInt 8 (-1)).toNat = 255 ∧ ((-1 : Int) % ((Width.bits .n8 : Nat) : Int)).toNat = 7 := by decide
theorem test_witness_RolRotatesLeft : HasOp 0x000438 8 ∧ 0 < Width.bits .n64 ∧ 63 < Width.bits .n64 ∧
    Width.bits .n64 ≤ 64 ∧ result 0x000408 0x1A5 0 = rowY 0x5A 0 ∧ result 0x000438 0x800000000000000F 0 = rowY 0xF8 3 := by
  decide
theorem test_witness_RorRotatesRight : HasOp 0x000439 9 ∧ 0 < Width.bits .n8 ∧ 7 < Width.bits .n8 ∧ Width.bits .n8 ≤ 8 ∧
    result 0x000439 0x800000000000000F 0 = rowY 0xF800000000000000 3 ∧
    result 0x000439 0x00000000000000F8 0 = rowY 0x800000000000000F 3 := by decide
theorem test_witness_RotationsCompose : (0x81#64).toNat < 2 ^ Width.bits .n8 ∧
    ¬ (0x181#64).toNat < 2 ^ Width.bits .n8 ∧ result 0x000108 0x81 0 = rowY 3 0 ∧ result 0x000709 0x81 0 = rowY 3 0 := by decide
theorem test_witness_RotationLaws : (0xA5#64).toNat < 2 ^ Width.bits .n8 ∧ (0xFF#64).toNat < 2 ^ Width.bits .n8 ∧
    ¬ (0x100#64).toNat < 2 ^ Width.bits .n8 ∧ (0xFFFFFFFFFFFFFFFF#64).toNat < 2 ^ Width.bits .n64 := by decide
theorem test_witness_PopcCountsOneBits : HasOp 0x00003A 10 ∧ result 0x00000A 0x1A5 7 = rowS 4 0 ∧
    result 0x00000A 0x100 7 = rowS 0 0 ∧ result 0x00003A 0x800000000000000F 7 = rowS 5 3 := by decide
theorem test_witness_ParIsOddCount : HasOp 0x00003B 11 ∧ 0 < Width.bits .n8 ∧ 7 < Width.bits .n8 ∧
    result 0x00003B 0x800000000000000F 7 = rowT true 3 := by decide
/-- At N = 8 the value 0x100 is zero, 0x2C and 0x80 are not. -/
theorem test_witness_FsbFindsTheLeastSetBit : HasOp 0x00000C 12 ∧ (0x100#64).toNat % 2 ^ Width.bits .n8 = 0 ∧
    (0x2C#64).toNat % 2 ^ Width.bits .n8 ≠ 0 ∧ (0x80#64).toNat % 2 ^ Width.bits .n8 ≠ 0 ∧
    result 0x00000C 0x100 7 = rowS 0xFF 0 ∧ result 0x00000C 0x2C 7 = rowS 2 0 ∧ result 0x00003C 0 7 = rowS 0xFF 3 := by decide
theorem test_witness_FsbLaws : (0x2C#64).toNat % 2 ^ Width.bits .n8 ≠ 0 ∧ (0x180#64).toNat % 2 ^ Width.bits .n8 ≠ 0 ∧
    ¬ (0x100#64).toNat % 2 ^ Width.bits .n8 ≠ 0 ∧ result 0x000207 0x2C 0 = rowT true 0 ∧ result 0x000107 0x2C 0 = rowT false 0 := by
  decide
theorem test_witness_FsbFeedsTheBitOperations : (0x2C#64).toNat % 2 ^ Width.bits .n8 ≠ 0 ∧ (ValidField 8 7 1 ∧ (0 : Int) < 1) ∧
    (ValidField 8 0 8 ∧ (0 : Int) < 8) ∧ shown (exec (.tstb .n8 (s8 0xFF)) (ports 0x00FF07 0 0)) = rowErr 2 0x00FF07 0 := by
  decide
theorem test_witness_Isp2TestsForAPower : HasOp 0x00001D 13 ∧ result 0x00000D 0x100 7 = rowT false 0 ∧
    result 0x00003D 0x100000000 7 = rowT true 3 ∧ result 0x00001D 0x8000 7 = rowT true 1 ∧
    result 0x00000D 3 7 = rowT false 0 := by decide
theorem test_witness_DerivedFormsOfResults : 0 < 4 ∧ 3 < 4 ∧ (0xFF#8).toInt % ((8 <<< 3 : Nat) : Int) = 63 ∧
    8 ≤ Width.bits .n8 ∧ 0 ≤ Width.bits .n8 ∧ fwdMask 8 8 = 0xFF#8 := by decide
theorem test_witness_Isp2Laws : 0 < Width.bits .n64 ∧ 63 < Width.bits .n64 ∧
    result 0x00003D (BitVec.ofNat 64 (2 ^ 63)) 0 = rowT true 3 := by decide
/-- The empty field at 0, N and N + 1, the full one at 0 and 1. -/
theorem test_witness_ValidOperandsSucceed : result 0x000000 0 0 = rowY 0 0 ∧ result 0x000800 0 0 = rowY 0 0 ∧
    result 0x000900 0 0 = rowErr 5 0x000900 0 ∧ result 0x080000 0 0 = rowY 0xFF 0 ∧
    result 0x080100 0 0 = rowErr 5 0x080100 0 := by decide
theorem test_witness_FailureShowsCodeAndCommand : result 0x030603 0xA5 1 = rowErr 5 0x030603 0 ∧
    result 0x030603 7 9 = rowErr 5 0x030603 0 ∧
    result 0x000307 0xA5 1 = rowT false 0 ∧ result 0x000000 0xA5 1 = rowY 0 0 := by decide
theorem test_witness_UnsignedReadingsOfTheChecks : result 0x00FF04 1 1 = rowErr 2 0x00FF04 0 ∧
    result 0x01FF02 1 1 = rowErr 3 0x01FF02 0 := by decide
theorem test_witness_ErrorPriority : result 0x808000 1 1 = rowErr 3 0x808000 0 ∧ result 0x0504D2 1 1 = rowErr 1 0x0504D2 1 ∧
    result 0xFF0303 1 1 = rowErr 4 0xFF0303 0 ∧ result 0x7F7F10 1 1 = rowErr 5 0x7F7F10 1 := by decide
theorem test_witness_NotErrors : ValidField 8 2 3 ∧ ((0 : Int) ≤ 8 ∧ (8 : Int) ≤ (Width.bits .n8 : Nat)) ∧
    SameReadFields 0x34123A#24 0x00003A#24 ∧ SameReadFields 0x770304#24 0x000304#24 ∧
    (8 ≤ ((0x000408#24).extractLsb' 0 4).toNat ∧ result 0x000448 1 0 = rowErr 1 0x000448 0) ∧
    (((0x00000D#24).extractLsb' 0 4).toNat ≤ 13 ∧ result 0x00008D 1 0 = rowErr 1 0x00008D 0) := by
  refine ⟨by decide, by decide, ?_, ?_, by decide, by decide⟩
  · exact ⟨by decide, by decide, by decide⟩
  · exact ⟨by decide, by decide, by decide⟩

end Sys2Proof.Tests
end

section
/-! What the value functions of the operations compute as integers: the words of Sys2Proof.Machine.Reference. -/

namespace Sys2Proof.Machine

open Reference

/-! ## Fields -/

/-- A replaced field leaves the number above and below the field as it was (R82). -/
theorem replaced_split {s l lo f hi v : Nat} (hlo : lo < 2 ^ s) (hf : f < 2 ^ l) :
    replaced (2 ^ s * (2 ^ l * hi + f) + lo) s l v = 2 ^ s * (2 ^ l * hi + v % 2 ^ l) + lo := by
  have hfield : field (2 ^ s * (2 ^ l * hi + f) + lo) s l = f := by
    rw [field, Nat.mul_add_div (Nat.two_pow_pos s), Nat.div_eq_of_lt hlo, add_zero, Nat.mul_add_mod, Nat.mod_eq_of_lt hf]
  have e (x : Nat) : 2 ^ s * (2 ^ l * hi + x) = 2 ^ s * (2 ^ l * hi) + x * 2 ^ s := by ring
  rw [replaced, hfield, e, e]
  omega

/-- The number as its part above a field, the field, and its part below. -/
theorem eq_above_field_below (a s l : Nat) :
    a = 2 ^ s * (2 ^ l * (a / 2 ^ s / 2 ^ l) + a / 2 ^ s % 2 ^ l) + a % 2 ^ s := by
  rw [Nat.div_add_mod, Nat.div_add_mod]

theorem testBit_replaced (a s l v k : Nat) :
    (replaced a s l v).testBit k = if s ≤ k ∧ k < s + l then v.testBit (k - s) else a.testBit k := by
  have hlo : a % 2 ^ s < 2 ^ s := Nat.mod_lt _ (Nat.two_pow_pos s)
  have hf (x : Nat) : x % 2 ^ l < 2 ^ l := Nat.mod_lt _ (Nat.two_pow_pos l)
  have ha := eq_above_field_below a s l
  generalize a / 2 ^ s / 2 ^ l = hi at ha
  rw [ha, replaced_split hlo (hf _)]
  simp only [Nat.testBit_two_pow_mul_add _ hlo, Nat.testBit_two_pow_mul_add _ (hf _)]
  by_cases below : k < s
  · simp [below, Nat.not_le_of_lt below]
  by_cases inside : k - s < l
  · simp [below, inside, Nat.testBit_mod_two_pow, show s ≤ k ∧ k < s + l by omega]
  · simp [below, inside, show ¬ (s ≤ k ∧ k < s + l) by omega]

theorem toNat_writeField {n start len : Nat} (a b : RegVal n) (h : start + len ≤ n) :
    (writeField a start len b).toNat = replaced a.toNat start len b.toNat := by
  apply Nat.eq_of_testBit_eq
  intro k
  simp only [BitVec.testBit_toNat, getLsbD_writeField a b h, testBit_replaced]

/-! ## Single bits: a bit is a field of length 1 -/

theorem field_one (a i : Nat) : field a i 1 = bit a i := by rw [field, bit, pow_one]

theorem bit_eq_toNat_testBit (a i : Nat) : bit a i = (a.testBit i).toNat := by
  rw [Nat.toNat_testBit, bit]

theorem bit_eq_zero_of_ne_one {a i : Nat} (h : bit a i ≠ 1) : bit a i = 0 :=
  (Nat.mod_two_eq_zero_or_one _).resolve_right h

theorem two_pow_le_of_bit_eq_one {a i : Nat} (h : bit a i = 1) : 2 ^ i ≤ a := by
  apply Nat.ge_two_pow_of_testBit
  simpa [bit_eq_toNat_testBit] using h

theorem replaced_one (a i v : Nat) : replaced a i 1 v = a - bit a i * 2 ^ i + v % 2 * 2 ^ i := by
  rw [replaced, field_one, pow_one]

theorem testBit_replaced_one (a i v k : Nat) :
    (replaced a i 1 v).testBit k = if k = i then v.testBit 0 else a.testBit k := by
  rw [testBit_replaced]
  by_cases h : k = i
  · simp [h]
  · rw [if_neg h, if_neg (by omega)]

/-- A value whose bit `i` is that of `v` and whose other bits are those of `a`, as an integer. -/
theorem toNat_eq_replaced_one {n i v : Nat} {a r : RegVal n}
    (h : ∀ k, r.getLsbD k = if k = i then v.testBit 0 else a.getLsbD k) : r.toNat = replaced a.toNat i 1 v := by
  apply Nat.eq_of_testBit_eq
  intro k
  rw [testBit_replaced_one, BitVec.testBit_toNat, BitVec.testBit_toNat, h]

/-- No bit of a value is at or above its width. -/
theorem lt_width_and_getLsbD {n : Nat} (a : RegVal n) (k : Nat) : (decide (k < n) && a.getLsbD k) = a.getLsbD k := by
  by_cases h : k < n
  · simp [h]
  · simp [h, BitVec.getLsbD_of_ge a k (by omega)]

theorem toNat_setBit {n i : Nat} (a : RegVal n) (hi : i < n) :
    (setBit a i).toNat = if bit a.toNat i = 1 then a.toNat else a.toNat + 2 ^ i := by
  have h : (setBit a i).toNat = replaced a.toNat i 1 1 := by
    apply toNat_eq_replaced_one
    intro k
    rw [getLsbD_setBit]
    by_cases hk : k = i
    · simp [hk, hi]
    · simp [hk, lt_width_and_getLsbD]
  rw [h, replaced_one]
  by_cases hb : bit a.toNat i = 1
  · have := two_pow_le_of_bit_eq_one hb
    rw [if_pos hb, hb]
    omega
  · rw [if_neg hb, bit_eq_zero_of_ne_one hb]
    omega

theorem toNat_clearBit {n : Nat} (a : RegVal n) (i : Nat) :
    (clearBit a i).toNat = if bit a.toNat i = 1 then a.toNat - 2 ^ i else a.toNat := by
  have h : (clearBit a i).toNat = replaced a.toNat i 1 0 := by
    apply toNat_eq_replaced_one
    intro k
    rw [getLsbD_clearBit]
    by_cases hk : k = i
    · simp [hk]
    · simp [hk, lt_width_and_getLsbD]
  rw [h, replaced_one]
  by_cases hb : bit a.toNat i = 1
  · rw [if_pos hb, hb]
    omega
  · rw [if_neg hb, bit_eq_zero_of_ne_one hb]
    omega

/-- Toggling sets a bit that is clear and clears one that is set. -/
theorem toggleBit_eq {n i : Nat} (a : RegVal n) (hi : i < n) :
    toggleBit a i = if bit a.toNat i = 1 then clearBit a i else setBit a i := by
  have hb : bit a.toNat i = (a.getLsbD i).toNat := by rw [bit_eq_toNat_testBit, BitVec.testBit_toNat]
  apply BitVec.eq_of_getLsbD_eq
  intro k hk
  rw [apply_ite (fun r => BitVec.getLsbD r k), getLsbD_toggleBit, getLsbD_clearBit, getLsbD_setBit, hb]
  by_cases hki : k = i
  · subst hki
    cases a.getLsbD k <;> simp [hi]
  · simp [hki]

theorem toNat_toggleBit {n i : Nat} (a : RegVal n) (hi : i < n) :
    (toggleBit a i).toNat = if bit a.toNat i = 1 then a.toNat - 2 ^ i else a.toNat + 2 ^ i := by
  rw [toggleBit_eq a hi]
  by_cases hb : bit a.toNat i = 1
  · rw [if_pos hb, toNat_clearBit, if_pos hb, if_pos hb]
  · rw [if_neg hb, toNat_setBit a hi, if_neg hb, if_neg hb]

theorem isBitSet_eq_bit {n : Nat} (a : RegVal n) (i : Nat) : isBitSet a i = (bit a.toNat i == 1) := by
  rw [isBitSet_eq, bit_eq_toNat_testBit, BitVec.testBit_toNat]
  cases a.getLsbD i <;> rfl

/-! ## Rotations -/

theorem mul_two_pow_mod_two_pow (a : Nat) {n s : Nat} (h : s ≤ n) : a * 2 ^ s % 2 ^ n = 2 ^ s * (a % 2 ^ (n - s)) := by
  rw [← pow_mul_pow_sub 2 h, Nat.mul_comm a, Nat.mul_mod_mul_left]

theorem div_two_pow_lt {a n s : Nat} (ha : a < 2 ^ n) (h : s ≤ n) : a / 2 ^ s < 2 ^ (n - s) :=
  Nat.div_lt_of_lt_mul (by rwa [pow_mul_pow_sub 2 h])

theorem toNat_rotateLeft {n : Nat} (hn : 0 < n) (a : RegVal n) (shift : Nat) :
    (rotateLeft a shift).toNat = rotatedLeft n a.toNat (shift % n) := by
  have hs : shift % n ≤ n := (Nat.mod_lt _ hn).le
  have hlow : a.toNat / 2 ^ (n - shift % n) < 2 ^ (shift % n) := by
    simpa [Nat.sub_sub_self hs] using div_two_pow_lt a.isLt (Nat.sub_le n (shift % n))
  rw [rotateLeft_eq, BitVec.toNat_rotateLeft, Nat.shiftLeft_eq, Nat.shiftRight_eq_div_pow, rotatedLeft,
    mul_two_pow_mod_two_pow _ hs, Nat.two_pow_add_eq_or_of_lt hlow]

theorem toNat_rotateRight {n : Nat} (hn : 0 < n) (a : RegVal n) (shift : Nat) :
    (rotateRight a shift).toNat = rotatedRight n a.toNat (shift % n) := by
  have hs : shift % n ≤ n := (Nat.mod_lt _ hn).le
  rw [rotateRight_eq, BitVec.toNat_rotateRight, Nat.shiftLeft_eq, Nat.shiftRight_eq_div_pow, rotatedRight,
    mul_two_pow_mod_two_pow _ (Nat.sub_le n _), Nat.sub_sub_self hs, Nat.or_comm,
    ← Nat.two_pow_add_eq_or_of_lt (div_two_pow_lt a.isLt hs), Nat.add_comm, Nat.mul_comm]

/-! ## Analysis -/

theorem countOnes_eq_sum (k x : Nat) : countOnes k x = ∑ i ∈ Finset.range k, x / 2 ^ i % 2 := by
  induction k generalizing x with
  | zero => rfl
  | succ k ih =>
    rw [countOnes, ih, Finset.sum_range_succ', pow_zero, Nat.div_one, Nat.add_comm]
    simp only [pow_succ', Nat.div_div_eq_div_mul]

theorem popcnt_eq_countOnes {n : Nat} (a : RegVal n) : popcnt a = countOnes n a.toNat := by
  rw [popcnt_eq_sum, countOnes_eq_sum]

theorem foldParity_eq (k x : Nat) : foldParity k x = (countOnes k x % 2 == 1) := by
  induction k generalizing x with
  | zero => rfl
  | succ k ih =>
    have hodd : (x % 2 + countOnes k (x / 2)) % 2 = 1 ↔ ¬ (x % 2 = 1 ↔ countOnes k (x / 2) % 2 = 1) := by omega
    rw [foldParity, countOnes, ih, Bool.eq_iff_iff, beq_iff_eq, hodd]
    simp

theorem parity_eq_foldParity {n : Nat} (a : RegVal n) : parity a = foldParity n a.toNat := by
  rw [parity, foldParity_eq, popcnt_eq_countOnes]

/-- The zeros below the least set bit are as many as its index. -/
theorem zerosBelow_eq {k x i : Nat} (hi : i < k) (hset : x.testBit i = true) (hlow : ∀ j < i, x.testBit j = false) :
    zerosBelow k x = i := by
  induction k generalizing x i with
  | zero => omega
  | succ k ih =>
    cases i with
    | zero => simp_all [zerosBelow, Nat.testBit_zero]
    | succ i =>
      have h0 : ¬ x % 2 = 1 := by simpa [Nat.testBit_zero] using hlow 0 (by omega)
      rw [zerosBelow, if_neg h0, ih (i := i) (by omega) (by rwa [← Nat.testBit_succ]), Nat.add_comm]
      intro j hj
      rw [← Nat.testBit_succ]
      exact hlow _ (by omega)

/-- The index on the 8-bit port; the sentinel -1 is 255 there (R120). -/
theorem ofInt_firstSetBit {n : Nat} (a : RegVal n) :
    BitVec.ofInt 8 (firstSetBit a) = BitVec.ofNat 8 (if a.toNat = 0 then 255 else zerosBelow n a.toNat) := by
  unfold firstSetBit
  split
  · next i hi =>
    obtain ⟨hlt, hset, hlow⟩ := (leastSetBit_eq_some a i).mp hi
    simp only [← BitVec.testBit_toNat] at hset hlow
    have hne : a.toNat ≠ 0 := by
      intro h
      simp [h] at hset
    rw [if_neg hne, zerosBelow_eq hlt hset hlow, BitVec.ofInt_natCast]
  · next hnone =>
    simp [(leastSetBit_eq_none a).mp hnone]

theorem toNat_and_sub_one {n : Nat} {a : RegVal n} (ha : a ≠ 0#n) :
    (a &&& (a - 1#n)).toNat = a.toNat &&& (a.toNat - 1) := by
  have h0 : a.toNat ≠ 0 := fun h => ha (BitVec.eq_of_toNat_eq h)
  have h1 : 1#n ≤ a := by
    rw [BitVec.le_def, BitVec.toNat_ofNat]
    exact (Nat.mod_le _ _).trans (by omega)
  have hn : 1 < 2 ^ n := by have := a.isLt; omega
  rw [BitVec.toNat_and, BitVec.toNat_sub_of_le h1, BitVec.toNat_ofNat, Nat.mod_eq_of_lt hn]

theorem power_iff {n a : Nat} (h : a < 2 ^ n) : power n a = true ↔ a.isPowerOfTwo := by
  simp only [power, List.any_eq_true, List.mem_range, beq_iff_eq, Nat.isPowerOfTwo]
  constructor
  · rintro ⟨k, -, rfl⟩
    exact ⟨k, rfl⟩
  · rintro ⟨k, rfl⟩
    exact ⟨k, (Nat.pow_lt_pow_iff_right (by omega)).mp h, rfl⟩

theorem isPowerOfTwo_eq_power {n : Nat} (a : RegVal n) : isPowerOfTwo a = power n a.toNat := by
  rw [Bool.eq_iff_iff, power_iff a.isLt, ← Nat.ne_zero_and_sub_one_eq_zero_iff_isPowerOfTwo]
  unfold isPowerOfTwo
  split
  · next h => simp [h]
  · next h =>
    have h0 : a.toNat ≠ 0 := fun e => h (BitVec.eq_of_toNat_eq e)
    rw [beq_iff_eq, ← toNat_and_sub_one h, BitVec.toNat_eq]
    simp [h0]

end Sys2Proof.Machine
end

section
/-! The operand checks: a checked operation succeeds exactly on valid operands (00_scope.md R13). -/

namespace Sys2Proof.Machine

open Sys2Proof.Safety

theorem fieldCode_ne_zero (start len : Int) : fieldCode start len ≠ 0 := by
  unfold fieldCode
  split_ifs <;> decide

/-- A field operation whose result is a success succeeds exactly on a valid descriptor. -/
theorem checked_descriptor_err_eq_zero_iff (n : Nat) (start len : Int) (st done : State) (hdone : done.outputs.err = 0) :
    ∃ t, checked (descriptorError n start len) st done = .next t ∧ (t.outputs.err = 0 ↔ ValidField n start len) := by
  by_cases h : ValidField n start len
  · exact ⟨_, checked_descriptor_of_valid h st done, iff_of_true hdone h⟩
  · exact ⟨_, checked_descriptor_of_invalid h st done, iff_of_false (fieldCode_ne_zero start len) h⟩

/-- A bit operation whose result is a success succeeds exactly on a valid index. -/
theorem checked_index_err_eq_zero_iff (n : Nat) (idx : Int) (st done : State) (hdone : done.outputs.err = 0) :
    ∃ t, checked (indexError n idx) st done = .next t ∧ (t.outputs.err = 0 ↔ ValidIndex n idx) := by
  by_cases h : ValidIndex n idx
  · exact ⟨_, checked_index_of_valid h st done, iff_of_true hdone h⟩
  · exact ⟨_, checked_index_of_invalid h st done, iff_of_false (show (2 : BitVec 3) ≠ 0 by decide) h⟩

end Sys2Proof.Machine

namespace Sys2Proof.Proofs

open Sys2Proof.Machine

/-- Settles O51: each of the eight operations is a checked one, whose result is driven with `ERR` = 0. -/
theorem validOperandsSucceed : Obligations.ValidOperandsSucceed := by
  unfold Obligations.ValidOperandsSucceed
  constructor
  · rintro w start len i s (rfl | rfl | rfl | rfl) <;>
      exact checked_descriptor_err_eq_zero_iff w.bits start len s _ rfl
  · rintro w idx i s (rfl | rfl | rfl | rfl) <;>
      exact checked_index_err_eq_zero_iff w.bits idx s _ rfl

end Sys2Proof.Proofs
end

section
/-! The step against the block function written on integers (10_state.md R31): the block's answer to a legal word,
the machine's answer to each operation, and the two agree. -/

namespace Sys2Proof.Machine

open Sys2Proof.Safety

/-- The integer block's outputs of a success with the results `Y`, `S`, `T`. -/
def delivered (p : Inputs) (r : Nat × Nat × Bool) : Outputs :=
  Reference.ok (p.cmd.toNat / 16 % 4) r.1 r.2.1 r.2.2

/-- The integer block's answer to operation `op` at width `n`, once the word is legal. -/
def legalBlock (p : Inputs) (op n pos len : Nat) : Outputs :=
  if Reference.operandCode op n pos len = 0 then
    delivered p (Reference.results op n (operandA n p).toNat (operandB n p).toNat pos len)
  else Reference.fail p.cmd.toNat (p.cmd.toNat / 16 % 4) (Reference.operandCode op n pos len)

/-! ## The integer block in the words of the ports -/

theorem ofNat_wsel (c : CmdWord) : BitVec.ofNat 2 (c.toNat / 16 % 4) = cmdWsel c := by
  rw [← toNat_cmdWsel, BitVec.ofNat_toNat, BitVec.setWidth_eq]

theorem reference_fail_eq (p : Inputs) (code : Nat) :
    Reference.fail p.cmd.toNat (p.cmd.toNat / 16 % 4) code = failed p (BitVec.ofNat 3 code) := by
  rw [Reference.fail, ofNat_wsel, BitVec.ofNat_toNat, BitVec.setWidth_eq]
  rfl

theorem delivered_y (p : Inputs) {n : Nat} (r : RegVal n) : delivered p (r.toNat, 0, false) = okY p (zext64 r) := by
  simp only [delivered, Reference.ok, ofNat_wsel, BitVec.ofNat_toNat]
  rfl

theorem delivered_s (p : Inputs) (k : Nat) : delivered p (0, k, false) = okS p (BitVec.ofNat 8 k) := by
  simp only [delivered, Reference.ok, ofNat_wsel]
  rfl

theorem delivered_t (p : Inputs) (t : Bool) : delivered p (0, 0, t) = okT p t := by
  simp only [delivered, Reference.ok, ofNat_wsel]
  rfl

/-- The block's fields are those of the decoder (R50, R53). -/
theorem block_eq (p : Inputs) :
    Reference.block p =
      if (cmdRsv p.cmd).toNat ≠ 0 ∨ (cmdOp p.cmd).toNat = 14 ∨ (cmdOp p.cmd).toNat = 15 then failed p 1
      else legalBlock p (cmdOp p.cmd).toNat (widthOfWsel (cmdWsel p.cmd)).bits (cmdPos p.cmd).toNat
        (cmdLen p.cmd).toNat := by
  rw [show failed p 1 = _ from (reference_fail_eq p 1).symm, legalBlock, bits_widthOfWsel, Nat.shiftLeft_eq,
    toNat_operandA, toNat_operandB, toNat_cmdRsv, toNat_cmdOp, toNat_cmdWsel, toNat_cmdPos, toNat_cmdLen]
  rfl

/-! ## The operand checks on integers -/

/-- A byte read as a signed operand that is not negative is the byte read unsigned. -/
theorem toNat_s8_of_nonneg {x : BitVec 8} (h : 0 ≤ s8 x) : (s8 x).toNat = x.toNat := by
  unfold s8 at *
  split at h <;> split <;> omega

theorem descriptorCode_of_valid {n : Nat} {start len : Int} (h : ValidField n start len) :
    Reference.descriptorCode n start len = 0 := by
  obtain ⟨h1, h2, h3⟩ := h
  rw [Reference.descriptorCode, if_neg (by omega), if_neg (by omega), if_neg (by omega)]

theorem descriptorCode_of_invalid {n : Nat} {start len : Int} (h : ¬ ValidField n start len) :
    Reference.descriptorCode n start len ≠ 0 ∧
      BitVec.ofNat 3 (Reference.descriptorCode n start len) = fieldCode start len := by
  unfold Reference.descriptorCode fieldCode
  split_ifs with h1 h2 h3
  · exact ⟨by decide, rfl⟩
  · exact ⟨by decide, rfl⟩
  · exact ⟨by decide, rfl⟩
  · exact absurd ⟨by omega, by omega, by omega⟩ h

theorem indexCode_of_valid {n : Nat} {idx : Int} (h : ValidIndex n idx) : Reference.indexCode n idx = 0 := by
  obtain ⟨h1, h2⟩ := h
  exact if_neg (by omega)

theorem indexCode_of_invalid {n : Nat} {idx : Int} (h : ¬ ValidIndex n idx) : Reference.indexCode n idx = 2 :=
  if_pos (by unfold ValidIndex at h; omega)

theorem legalBlock_of_code_zero {p : Inputs} {op n pos len : Nat} (h : Reference.operandCode op n pos len = 0) :
    legalBlock p op n pos len =
      delivered p (Reference.results op n (operandA n p).toNat (operandB n p).toNat pos len) := if_pos h

theorem legalBlock_of_code_ne_zero {p : Inputs} {op n pos len : Nat} (h : Reference.operandCode op n pos len ≠ 0) :
    legalBlock p op n pos len = failed p (BitVec.ofNat 3 (Reference.operandCode op n pos len)) := by
  rw [legalBlock, if_neg h, reference_fail_eq]

/-! ## The machine's operations: what each kind must show of its results to be the block's answer -/

section Operations

variable (w : Width) (pos len : BitVec 8) (s : State)

/-- The machine answers with the outputs that the integer block gives to operation `op` on these operands. -/
def AnswersAsBlock (op : Nat) (o : Host.Outcome State Fault Refusal) : Prop :=
  o = .next { s with outputs := legalBlock s.inputs op w.bits pos.toNat len.toNat }

/-- The integer block's results of operation `op` on the operands `start` and `l`. -/
def blockResults (op start l : Nat) : Nat × Nat × Bool :=
  Reference.results op w.bits (operandA w.bits s.inputs).toNat (operandB w.bits s.inputs).toNat start l

variable {w s}

theorem driveY_eq_delivered {r : RegVal w.bits} {res : Nat × Nat × Bool} (h : res = (r.toNat, 0, false)) :
    driveY r s = { s with outputs := delivered s.inputs res } := by
  rw [driveY_eq, h, delivered_y]

theorem driveS_eq_delivered {k : Int} {m : Nat} (h : BitVec.ofInt 8 k = BitVec.ofNat 8 m) :
    driveS k s = { s with outputs := delivered s.inputs (0, m, false) } := by
  rw [driveS_eq, h, delivered_s]

theorem driveT_eq_delivered {t t' : Bool} (h : t = t') :
    driveT t s = { s with outputs := delivered s.inputs (0, 0, t') } := by
  rw [driveT_eq, h, delivered_t]

/-- A field operation: opcodes 0 to 3. Only valid descriptors need a result, and on them the signed bytes are the
unsigned ones. -/
theorem fieldOp_answersAsBlock {op : Nat} (hop : op ≤ 3) (done : Nat → Nat → State)
    (hdone : ∀ start l, start + l ≤ w.bits →
      done start l = { s with outputs := delivered s.inputs (blockResults w s op start l) }) :
    AnswersAsBlock w pos len s op
      (checked (descriptorError w.bits (s8 pos) (s8 len)) s (done (s8 pos).toNat (s8 len).toNat)) := by
  have hcode : Reference.operandCode op w.bits pos.toNat len.toNat =
      Reference.descriptorCode w.bits (s8 pos) (s8 len) := if_pos hop
  by_cases h : ValidField w.bits (s8 pos) (s8 len)
  · have hvalid := h
    obtain ⟨hstart, hlen, hfit⟩ := hvalid
    have epos := toNat_s8_of_nonneg hstart
    have elen := toNat_s8_of_nonneg hlen
    rw [AnswersAsBlock, checked_descriptor_of_valid h, epos, elen, hdone _ _ (by omega),
      legalBlock_of_code_zero (hcode.trans (descriptorCode_of_valid h))]
    rfl
  · obtain ⟨hne, hnum⟩ := descriptorCode_of_invalid h
    rw [AnswersAsBlock, checked_descriptor_of_invalid h, legalBlock_of_code_ne_zero (hcode ▸ hne), hcode, hnum]

/-- A bit operation: opcodes 4 to 7. -/
theorem bitOp_answersAsBlock {op : Nat} (hlow : 3 < op) (hop : op ≤ 7) (done : Nat → State)
    (hdone : ∀ i, i < w.bits → done i = { s with outputs := delivered s.inputs (blockResults w s op i len.toNat) }) :
    AnswersAsBlock w pos len s op (checked (indexError w.bits (s8 pos)) s (done (s8 pos).toNat)) := by
  have hcode : Reference.operandCode op w.bits pos.toNat len.toNat = Reference.indexCode w.bits (s8 pos) :=
    (if_neg (Nat.not_le_of_lt hlow)).trans (if_pos hop)
  by_cases h : ValidIndex w.bits (s8 pos)
  · have epos := toNat_s8_of_nonneg h.1
    have hlt := h.2
    rw [AnswersAsBlock, checked_index_of_valid h, epos, hdone _ (by omega),
      legalBlock_of_code_zero (hcode.trans (indexCode_of_valid h))]
    rfl
  · have hcode2 := hcode.trans (indexCode_of_invalid h)
    rw [AnswersAsBlock, checked_index_of_invalid h, legalBlock_of_code_ne_zero (by omega), hcode2]
    rfl

/-- An operation without a check: opcodes 8 to 13. -/
theorem uncheckedOp_answersAsBlock {op : Nat} (hop : 7 < op) {done : State}
    (hdone : done = { s with outputs := delivered s.inputs (blockResults w s op pos.toNat len.toNat) }) :
    AnswersAsBlock w pos len s op (.next done) := by
  have hcode : Reference.operandCode op w.bits pos.toNat len.toNat = 0 :=
    (if_neg (by omega)).trans (if_neg (by omega))
  rw [AnswersAsBlock, legalBlock_of_code_zero hcode, hdone]
  rfl

/-! ## The fourteen operations -/

theorem execFmask_answersAsBlock : AnswersAsBlock w pos len s 0 (execFmask w (s8 len) (s8 pos) s) :=
  fieldOp_answersAsBlock pos len (by decide) (fun start l => driveY (forwardMask w.bits l start) s)
    fun _ _ h => driveY_eq_delivered (congrArg (·, 0, false) (toNat_forwardMask h).symm)

theorem execImask_answersAsBlock : AnswersAsBlock w pos len s 1 (execImask w (s8 len) (s8 pos) s) :=
  fieldOp_answersAsBlock pos len (by decide) (fun start l => driveY (inverseMask w.bits l start) s)
    fun _ _ h => driveY_eq_delivered (congrArg (·, 0, false) (toNat_inverseMask h).symm)

theorem execRdf_answersAsBlock : AnswersAsBlock w pos len s 2 (execRdf w (s8 pos) (s8 len) s) :=
  fieldOp_answersAsBlock pos len (by decide)
    (fun start l => driveY (readField (operandA w.bits s.inputs) start l) s)
    fun _ _ h => driveY_eq_delivered (congrArg (·, 0, false) (toNat_readField _ h).symm)

theorem execWrf_answersAsBlock : AnswersAsBlock w pos len s 3 (execWrf w (s8 pos) (s8 len) s) :=
  fieldOp_answersAsBlock pos len (by decide)
    (fun start l => driveY (writeField (operandA w.bits s.inputs) start l (operandB w.bits s.inputs)) s)
    fun _ _ h => driveY_eq_delivered (congrArg (·, 0, false) (toNat_writeField _ _ h).symm)

theorem execSetb_answersAsBlock : AnswersAsBlock w pos len s 4 (execSetb w (s8 pos) s) :=
  bitOp_answersAsBlock pos len (by decide) (by decide) (fun i => driveY (setBit (operandA w.bits s.inputs) i) s)
    fun _ h => driveY_eq_delivered (congrArg (·, 0, false) (toNat_setBit _ h).symm)

theorem execClrb_answersAsBlock : AnswersAsBlock w pos len s 5 (execClrb w (s8 pos) s) :=
  bitOp_answersAsBlock pos len (by decide) (by decide) (fun i => driveY (clearBit (operandA w.bits s.inputs) i) s)
    fun i _ => driveY_eq_delivered (congrArg (·, 0, false) (toNat_clearBit _ i).symm)

theorem execTglb_answersAsBlock : AnswersAsBlock w pos len s 6 (execTglb w (s8 pos) s) :=
  bitOp_answersAsBlock pos len (by decide) (by decide) (fun i => driveY (toggleBit (operandA w.bits s.inputs) i) s)
    fun _ h => driveY_eq_delivered (congrArg (·, 0, false) (toNat_toggleBit _ h).symm)

theorem execTstb_answersAsBlock : AnswersAsBlock w pos len s 7 (execTstb w (s8 pos) s) :=
  bitOp_answersAsBlock pos len (by decide) (by decide) (fun i => driveT (isBitSet (operandA w.bits s.inputs) i) s)
    fun i _ => driveT_eq_delivered (isBitSet_eq_bit _ i)

theorem execRol_answersAsBlock : AnswersAsBlock w pos len s 8 (execRol w pos.toNat s) :=
  uncheckedOp_answersAsBlock pos len (by decide)
    (driveY_eq_delivered (congrArg (·, 0, false) (toNat_rotateLeft (bits_pos w) _ _).symm))

theorem execRor_answersAsBlock : AnswersAsBlock w pos len s 9 (execRor w pos.toNat s) :=
  uncheckedOp_answersAsBlock pos len (by decide)
    (driveY_eq_delivered (congrArg (·, 0, false) (toNat_rotateRight (bits_pos w) _ _).symm))

theorem execPopc_answersAsBlock : AnswersAsBlock w pos len s 10 (execPopc w s) :=
  uncheckedOp_answersAsBlock pos len (by decide)
    (driveS_eq_delivered (by rw [BitVec.ofInt_natCast, popcnt_eq_countOnes]))

theorem execPar_answersAsBlock : AnswersAsBlock w pos len s 11 (execPar w s) :=
  uncheckedOp_answersAsBlock pos len (by decide) (driveT_eq_delivered (parity_eq_foldParity _))

theorem execFsb_answersAsBlock : AnswersAsBlock w pos len s 12 (execFsb w s) :=
  uncheckedOp_answersAsBlock pos len (by decide) (driveS_eq_delivered (ofInt_firstSetBit _))

theorem execIsp2_answersAsBlock : AnswersAsBlock w pos len s 13 (execIsp2 w s) :=
  uncheckedOp_answersAsBlock pos len (by decide) (driveT_eq_delivered (isPowerOfTwo_eq_power _))

variable {pos len}

/-- Whatever the opcode map selects answers as the integer block does at that opcode (R52). -/
theorem exec_decodeOp_answersAsBlock {op : BitVec 4} {i : Instr} (h : decodeOp op w pos len = .ok i) :
    AnswersAsBlock w pos len s op.toNat (exec i s) := by
  unfold decodeOp at h
  generalize op.toNat = k at *
  split at h <;> cases h
  · exact execFmask_answersAsBlock pos len
  · exact execImask_answersAsBlock pos len
  · exact execRdf_answersAsBlock pos len
  · exact execWrf_answersAsBlock pos len
  · exact execSetb_answersAsBlock pos len
  · exact execClrb_answersAsBlock pos len
  · exact execTglb_answersAsBlock pos len
  · exact execTstb_answersAsBlock pos len
  · exact execRol_answersAsBlock pos len
  · exact execRor_answersAsBlock pos len
  · exact execPopc_answersAsBlock pos len
  · exact execPar_answersAsBlock pos len
  · exact execFsb_answersAsBlock pos len
  · exact execIsp2_answersAsBlock pos len

end Operations

/-! ## The decoder's verdict is the block's -/

theorem block_of_decode_error {p : Inputs} {e : DecodeError} (h : decode p.cmd = .error e) :
    Reference.block p = failed p 1 := by
  rw [block_eq, if_pos]
  by_cases hr : cmdRsv p.cmd = 0#2
  · right
    rw [decode_of_rsv_zero hr] at h
    have hnot : ¬ (cmdOp p.cmd).toNat < 14 := by
      rw [← decodeOp_ok_iff (cmdOp p.cmd) (widthOfWsel (cmdWsel p.cmd)) (cmdPos p.cmd) (cmdLen p.cmd), h]
      rintro ⟨i, hi⟩
      cases hi
    omega
  · exact .inl fun h0 => hr (BitVec.eq_of_toNat_eq h0)

theorem exec_of_decode_ok {s : State} {i : Instr} (h : decode s.inputs.cmd = .ok i) :
    exec i s = .next { s with outputs := Reference.block s.inputs } := by
  have hr : cmdRsv s.inputs.cmd = 0#2 := by
    by_contra hr
    rw [decode_of_reserved hr] at h
    cases h
  rw [decode_of_rsv_zero hr] at h
  have hop := (decodeOp_ok_iff _ _ _ _).mp ⟨i, h⟩
  have hlegal : ¬ ((cmdRsv s.inputs.cmd).toNat ≠ 0 ∨ (cmdOp s.inputs.cmd).toNat = 14 ∨
      (cmdOp s.inputs.cmd).toNat = 15) := by
    rw [hr, BitVec.toNat_ofNat]
    omega
  rw [block_eq, if_neg hlegal]
  exact exec_decodeOp_answersAsBlock h

end Sys2Proof.Machine

namespace Sys2Proof.Proofs

open Sys2Proof.Machine

/-- Settles O12: a legal word runs the operation that the opcode map selects, each of which answers as the integer block; an
illegal one is rejected by both with error 1. -/
theorem stepIsTheBlockFunction : Obligations.StepIsTheBlockFunction := by
  unfold Obligations.StepIsTheBlockFunction
  intro s
  obtain ⟨i, hdecode, hstep⟩ | ⟨e, hdecode, hstep⟩ := step_cases s
  · rw [hstep, exec_of_decode_ok hdecode]
  · rw [hstep, block_of_decode_error hdecode]

end Sys2Proof.Proofs
end

section
/-! What the outputs of a transaction can be (10_state.md R26 to R31): the result port of an operation, the range of a
scalar, legal outputs after every step, and the lanes of the data ports that count. -/

namespace Sys2Proof.Machine

open Sys2Proof.Safety

/-- The width of the transaction that an instruction asks for. -/
def operationWidth : Instr → Width
  | .fmask w _ _ => w
  | .imask w _ _ => w
  | .rdf w _ _ => w
  | .wrf w _ _ => w
  | .setb w _ => w
  | .clrb w _ => w
  | .tglb w _ => w
  | .tstb w _ => w
  | .rol w _ => w
  | .ror w _ => w
  | .popc w => w
  | .par w => w
  | .fsb w => w
  | .isp2 w => w

/-- The outputs that an operation of a result class may leave at width `n` (R30, R134). -/
inductive Answers (p : Inputs) (n : Nat) : ResultClass → Outputs → Prop
  /-- A Register Value, zero-extended. -/
  | register (r : RegVal n) : Answers p n .yClass (okY p (zext64 r))
  /-- A scalar: a number of bits, an index, or the sentinel -1. -/
  | scalar (k : Int) (low : -1 ≤ k) (high : k ≤ n) : Answers p n .sClass (okS p (BitVec.ofInt 8 k))
  /-- A boolean. -/
  | truth (t : Bool) : Answers p n .tClass (okT p t)
  /-- An error, whatever the class. -/
  | error (c : ResultClass) (e : ErrCode) : Answers p n c (failed p (errNumber e))

/-! ## What the operations answer -/

/-- A checked operation answers what it delivers or the error of its check. -/
theorem checked_answers (check : Option ErrCode) (s : State) {n : Nat} {c : ResultClass} {o : Outputs}
    (h : Answers s.inputs n c o) :
    ∃ o', checked check s { s with outputs := o } = .next { s with outputs := o' } ∧ Answers s.inputs n c o' := by
  cases check with
  | none => exact ⟨o, rfl, h⟩
  | some e => exact ⟨_, rfl, .error c e⟩

/-- The index is below the width, or it is the sentinel (R120). -/
theorem firstSetBit_bounds {n : Nat} (a : RegVal n) : -1 ≤ firstSetBit a ∧ firstSetBit a ≤ n := by
  unfold firstSetBit
  split
  · next i hi =>
    have hlt := ((leastSetBit_eq_some a i).mp hi).1
    omega
  · omega

/-- Every operation answers on the port of its class, at its own width. -/
theorem exec_answers (i : Instr) (s : State) :
    ∃ o, exec i s = .next { s with outputs := o } ∧ Answers s.inputs (operationWidth i).bits (resultClass i) o := by
  cases i with
  | fmask | imask | rdf | wrf | setb | clrb | tglb => exact checked_answers _ s (.register _)
  | tstb => exact checked_answers _ s (.truth _)
  | rol | ror => exact ⟨_, rfl, .register _⟩
  | popc w =>
    have hle := popcnt_le (operandA w.bits s.inputs)
    exact ⟨_, rfl, .scalar _ (by omega) (by exact_mod_cast hle)⟩
  | par | isp2 => exact ⟨_, rfl, .truth _⟩
  | fsb w =>
    obtain ⟨hlow, hhigh⟩ := firstSetBit_bounds (operandA w.bits s.inputs)
    exact ⟨_, rfl, .scalar _ hlow hhigh⟩

/-- Only the port of the class can carry anything. -/
theorem Answers.other_ports_zero {p : Inputs} {n : Nat} {c : ResultClass} {o : Outputs} (h : Answers p n c o) :
    (c ≠ .yClass → o.y = 0) ∧ (c ≠ .sClass → o.s = 0) ∧ (c ≠ .tClass → o.t = false) := by
  cases h with
  | register r => exact ⟨(absurd rfl ·), fun _ => rfl, fun _ => rfl⟩
  | scalar k => exact ⟨fun _ => rfl, (absurd rfl ·), fun _ => rfl⟩
  | truth t => exact ⟨fun _ => rfl, fun _ => rfl, (absurd rfl ·)⟩
  | error c e => exact ⟨fun _ => rfl, fun _ => rfl, fun _ => rfl⟩

/-! ## What the decoder has checked -/

theorem decodeOp_width {op : BitVec 4} {w : Width} {pos len : BitVec 8} {i : Instr}
    (h : decodeOp op w pos len = .ok i) : operationWidth i = w := by
  unfold decodeOp at h
  split at h <;> cases h <;> rfl

/-- A word that decodes is legal (R57) and gives the operation the width it selects (R53). -/
theorem legal_of_decode_ok {c : CmdWord} {i : Instr} (h : decode c = .ok i) :
    cmdRsv c = 0#2 ∧ (cmdOp c).toNat < 14 ∧ operationWidth i = widthOfWsel (cmdWsel c) := by
  have hrsv : cmdRsv c = 0#2 := by
    by_contra hne
    rw [decode_of_reserved hne] at h
    cases h
  rw [decode_of_rsv_zero hrsv] at h
  exact ⟨hrsv, (decodeOp_ok_iff _ _ _ _).mp ⟨i, h⟩, decodeOp_width h⟩

theorem step_of_decode_ok {s : State} {i : Instr} (h : decode s.inputs.cmd = .ok i) : step s = exec i s := by
  rw [step, presentedCmd_eq, h]

theorem decode_of_decodeTableWord {nbits w : Nat} {i : Instr} (h : decodeTableWord nbits w = some i) :
    decode (tableWord nbits w) = .ok i := by
  unfold decodeTableWord at h
  split at h
  · next j hj => rw [hj, Option.some.inj h]
  · cases h

/-- A table word of the port's size is the word itself. -/
theorem tableWord_cmd (w : Nat) : tableWord 24 w = BitVec.ofNat 24 w := by
  apply BitVec.eq_of_toNat_eq
  rw [tableWord, BitVec.toNat_ofNat, BitVec.toNat_ofNat, Nat.mod_mod]

/-! ## Legal outputs -/

/-- The all-zero word is `FMASK.8 0, 0`, which delivers 0 (R58). -/
theorem step_of_cmd_zero {s : State} (h : s.inputs.cmd = 0) : step s = .next { s with outputs := okY s.inputs 0 } := by
  have hdecode : decode s.inputs.cmd = .ok (.fmask .n8 0 0) := by
    rw [h]
    rfl
  rw [step_of_decode_ok hdecode]
  rfl

/-- A step fails on no word but a non-zero one (R135). -/
theorem cmd_ne_zero_of_step_err {s : State} {o : Outputs} (hstep : step s = .next { s with outputs := o })
    (herr : o.err ≠ 0) : s.inputs.cmd ≠ 0 := by
  intro hzero
  rw [step_of_cmd_zero hzero] at hstep
  cases hstep
  exact herr rfl

theorem errNumber_le (e : ErrCode) : (errNumber e).toNat ≤ 5 := by
  cases e <;> decide

theorem errNumber_ne_zero (e : ErrCode) : errNumber e ≠ 0 := by
  cases e <;> decide

/-- A scalar on the 8-bit port: the sentinel, or a number at most 64. -/
theorem ofInt_sentinel_or_le {n : Nat} {k : Int} (hn : n ≤ 64) (low : -1 ≤ k) (high : k ≤ n) :
    BitVec.ofInt 8 k = 0xFF#8 ∨ (BitVec.ofInt 8 k).toNat ≤ 64 := by
  by_cases hk : k = -1
  · left
    rw [hk]
    rfl
  · right
    rw [BitVec.toNat_ofInt]
    omega

/-- The width that the tag shows is the one the word selects (R29, R53). -/
theorem bits_eq_of_wsel (c : CmdWord) : (widthOfWsel (cmdWsel c)).bits = 8 * 2 ^ (cmdWsel c).toNat := by
  rw [bits_widthOfWsel, Nat.shiftLeft_eq]

theorem failed_legalOutputs {p : Inputs} (e : ErrCode) (hcmd : p.cmd ≠ 0) :
    LegalOutputs p (failed p (errNumber e)) :=
  ⟨rfl, errNumber_le e, fun _ => ⟨rfl, rfl, rfl, rfl, hcmd⟩, fun h => absurd h (errNumber_ne_zero e),
    Nat.two_pow_pos _, .inr (Nat.zero_le 64), .inl rfl, .inl rfl⟩

/-- What an operation answers to a legal word is legal. -/
theorem Answers.legalOutputs {p : Inputs} {c : ResultClass} {o : Outputs}
    (h : Answers p (widthOfWsel (cmdWsel p.cmd)).bits c o) (hrsv : cmdRsv p.cmd = 0#2)
    (hop : (cmdOp p.cmd).toNat < 14) (hcmd : o.err ≠ 0 → p.cmd ≠ 0) : LegalOutputs p o := by
  have hpos := Nat.two_pow_pos (8 * 2 ^ (cmdWsel p.cmd).toNat)
  cases h with
  | register r =>
    have hfit := (zext64_lt _ r).trans_eq (congrArg (2 ^ ·) (bits_eq_of_wsel p.cmd))
    exact ⟨rfl, Nat.zero_le 5, (absurd rfl ·), fun _ => ⟨rfl, hrsv, hop⟩, hfit, .inr (Nat.zero_le 64),
      .inr ⟨rfl, rfl⟩, .inl rfl⟩
  | scalar k low high =>
    exact ⟨rfl, Nat.zero_le 5, (absurd rfl ·), fun _ => ⟨rfl, hrsv, hop⟩, hpos,
      ofInt_sentinel_or_le (bits_le _) low high, .inl rfl, .inr rfl⟩
  | truth t =>
    exact ⟨rfl, Nat.zero_le 5, (absurd rfl ·), fun _ => ⟨rfl, hrsv, hop⟩, hpos, .inr (Nat.zero_le 64),
      .inl rfl, .inl rfl⟩
  | error c e => exact failed_legalOutputs e (hcmd (errNumber_ne_zero e))

/-- A step drives the outputs alone, and legally. -/
theorem step_legalOutputs (s : State) :
    ∃ o, step s = .next { s with outputs := o } ∧ LegalOutputs s.inputs o := by
  obtain ⟨i, hdecode, hstep⟩ | ⟨e, -, hstep⟩ := step_cases s
  · obtain ⟨hrsv, hop, hwidth⟩ := legal_of_decode_ok hdecode
    obtain ⟨o, hexec, hanswers⟩ := exec_answers i s
    rw [hwidth] at hanswers
    have hnext := hstep.trans hexec
    exact ⟨o, hnext, hanswers.legalOutputs hrsv hop (cmd_ne_zero_of_step_err hnext)⟩
  · exact ⟨_, hstep, failed_legalOutputs .illegalCmd (cmd_ne_zero_of_step_err hstep (errNumber_ne_zero .illegalCmd))⟩

/-! ## The lanes that count -/

theorem cmdBits_eq (c : CmdWord) : cmdBits c = 8 * 2 ^ (c.toNat / 16 % 4) := by
  rw [← toNat_cmdWsel, ← Nat.shiftLeft_eq]
  rfl

/-- The integer block sees only the low N bits of `A` and `B`. -/
theorem block_congr {p p' : Inputs} (hcmd : p.cmd = p'.cmd)
    (ha : p.a.toNat % 2 ^ cmdBits p.cmd = p'.a.toNat % 2 ^ cmdBits p.cmd)
    (hb : p.b.toNat % 2 ^ cmdBits p.cmd = p'.b.toNat % 2 ^ cmdBits p.cmd) :
    Reference.block p = Reference.block p' := by
  rw [cmdBits_eq, hcmd] at ha hb
  simp only [Reference.block, hcmd, ha, hb]

end Sys2Proof.Machine

namespace Sys2Proof.Proofs

open Sys2Proof.Machine Sys2Proof.Safety

/-- Settles O14: each operation answers on the port of its class within its width, an illegal word is answered with error 1,
and a failing word is not the all-zero one, which is a valid `FMASK`. -/
theorem everyStepLeavesLegalOutputs : Obligations.EveryStepLeavesLegalOutputs := by
  unfold Obligations.EveryStepLeavesLegalOutputs
  intro s
  obtain ⟨o, hstep, hlegal⟩ := step_legalOutputs s
  exact ⟨_, hstep, rfl, hlegal⟩

/-- Settles O16: the step is the integer block, which reduces `A` and `B` modulo 2^N before it uses them. -/
theorem upperInputLanesAreIgnored : Obligations.UpperInputLanesAreIgnored := by
  unfold Obligations.UpperInputLanesAreIgnored
  constructor
  · intro s s' hcmd ha hb
    exact ⟨_, _, stepIsTheBlockFunction s, stepIsTheBlockFunction s', block_congr hcmd ha hb⟩
  · intro b s ha _
    have hcount : popcnt (operandA 8 s.inputs) = 4 := by
      rw [operandA, ha]
      decide
    change Host.Outcome.next (driveS (popcnt (operandA 8 s.inputs) : Nat) s) = _
    rw [hcount]
    rfl

/-- Settles O18: an operation's answer carries nothing but on the port of its class. -/
theorem oneResultPort : Obligations.OneResultPort := by
  unfold Obligations.OneResultPort
  refine ⟨fun i s => ?_, fun i => ?_, fun i => ?_⟩
  · obtain ⟨o, hexec, hanswers⟩ := exec_answers i s
    obtain ⟨hy, hs, ht⟩ := hanswers.other_ports_zero
    refine ⟨_, hexec, ?_⟩
    cases i with
    | popc | fsb => exact ⟨hy nofun, ht nofun⟩
    | tstb | par | isp2 => exact ⟨hy nofun, hs nofun⟩
    | fmask | imask | rdf | wrf | setb | clrb | tglb | rol | ror => exact ⟨hs nofun, ht nofun⟩
  · cases i <;> simp [resultClass]
  · cases i <;> simp [resultClass]

/-- Settles O10: the step is by definition the decoded operation. -/
theorem stepRunsTheDecodedInstruction : Obligations.StepRunsTheDecodedInstruction := by
  unfold Obligations.StepRunsTheDecodedInstruction
  intro s i hdecode
  exact step_of_decode_ok hdecode

/-- Settles O11: presenting puts the word on the `CMD` port, where the step decodes it and leaves it. -/
theorem presentedWordRunsAfterReset : Obligations.PresentedWordRunsAfterReset := by
  unfold Obligations.PresentedWordRunsAfterReset
  intro w i hword
  have hstep : step (State.reset.withFetchWord 24 w) = exec i (State.reset.withFetchWord 24 w) :=
    step_of_decode_ok (decode_of_decodeTableWord hword)
  obtain ⟨o, hexec⟩ := exec_next i (State.reset.withFetchWord 24 w)
  exact ⟨_, hstep.trans hexec, hexec, tableWord_cmd w⟩

/-- Settles O17: legal outputs carry the tag, whether they show a success or a failure. -/
theorem widthTagCopiesWsel : Obligations.WidthTagCopiesWsel := by
  unfold Obligations.WidthTagCopiesWsel
  intro s
  obtain ⟨o, hstep, hwtag, -⟩ := step_legalOutputs s
  exact ⟨_, hstep, hwtag⟩

end Sys2Proof.Proofs
end

section
/-! Transactions and runs as the integer block (20_memory.md R42, R47): each transaction's outputs are the block of its own
inputs, and a result is an operand at another width by its low bits. -/

namespace Sys2Proof.Machine

open Sys2Proof.Safety

/-! ## Transactions and runs -/

/-- A transaction forgets everything that stood on the ports (R32, R33). -/
theorem transact_eq_block (p : Inputs) (s : State) :
    transact p s = .next { inputs := p, outputs := Reference.block p } :=
  Proofs.stepIsTheBlockFunction (present p s)

/-- A run gives the block of each of its inputs, whatever the ports showed before. -/
theorem runTransactions_eq_map_block (ps : List Inputs) (s : State) :
    ∃ last, runTransactions ps s = some (ps.map Reference.block, last) := by
  induction ps generalizing s with
  | nil => exact ⟨s, rfl⟩
  | cons p ps ih =>
    obtain ⟨last, hrest⟩ := ih { inputs := p, outputs := Reference.block p }
    refine ⟨last, ?_⟩
    simp only [runTransactions, transact_eq_block, hrest, List.map_cons]

/-- Pairing every element with its image under a function does not see the order. -/
theorem zip_map_perm {α β : Type} (f : α → β) {xs ys : List α} (h : xs.Perm ys) :
    (xs.zip (xs.map f)).Perm (ys.zip (ys.map f)) := by
  rw [← List.map_prod_left_eq_zip, ← List.map_prod_left_eq_zip]
  exact h.map _

/-! ## Results as operands of another width -/

/-- Legal outputs have a result of the width that the word selects (R28). -/
theorem y_lt_of_legalOutputs {p : Inputs} {o : Outputs} (h : LegalOutputs p o) : o.y.toNat < 2 ^ cmdBits p.cmd := by
  obtain ⟨hwtag, -, -, -, hy, -⟩ := h
  rw [hwtag, ← Nat.shiftLeft_eq] at hy
  exact hy

/-- A port word and its low `n` bits have the same low `n` bits. -/
theorem toNat_mod_eq_low (y : PortWord) (n : Nat) :
    y.toNat % 2 ^ n = (BitVec.ofNat 64 (y.toNat % 2 ^ n)).toNat % 2 ^ n := by
  have hlow : y.toNat % 2 ^ n < 2 ^ 64 := (Nat.mod_le _ _).trans_lt y.isLt
  rw [BitVec.toNat_ofNat, Nat.mod_eq_of_lt hlow, Nat.mod_mod]

/-- Two transactions with the same command word and the same low N bits of `A` and `B` show the same outputs (R27). -/
theorem transact_outputs_congr {p p' : Inputs} (prev : State) (hcmd : p.cmd = p'.cmd)
    (ha : p.a.toNat % 2 ^ cmdBits p.cmd = p'.a.toNat % 2 ^ cmdBits p.cmd)
    (hb : p.b.toNat % 2 ^ cmdBits p.cmd = p'.b.toNat % 2 ^ cmdBits p.cmd) :
    ∃ u u', transact p prev = .next u ∧ transact p' prev = .next u' ∧ u.outputs = u'.outputs :=
  ⟨_, _, transact_eq_block p prev, transact_eq_block p' prev, block_congr hcmd ha hb⟩

end Sys2Proof.Machine

namespace Sys2Proof.Proofs

open Sys2Proof.Machine Sys2Proof.Safety

/-- Settles O13: the function is the integer block. By induction a run maps it over its inputs, and a map commutes with
reordering. -/
theorem transactionsAreIndependent : Obligations.TransactionsAreIndependent := by
  unfold Obligations.TransactionsAreIndependent
  refine ⟨Reference.block, transact_eq_block, runTransactions_eq_map_block, fun ps qs s s' hperm => ?_⟩
  obtain ⟨last, hrun⟩ := runTransactions_eq_map_block ps s
  obtain ⟨last', hrun'⟩ := runTransactions_eq_map_block qs s'
  exact ⟨_, _, last, last', hrun, hrun', zip_map_perm Reference.block hperm⟩

/-- Settles O19: a result fits its width, and the block sees of an operand only its low bits at the width it is used at. -/
theorem mixedWidthOperandsAreTruncated : Obligations.MixedWidthOperandsAreTruncated := by
  unfold Obligations.MixedWidthOperandsAreTruncated
  intro s
  obtain ⟨o, hstep, hlegal⟩ := step_legalOutputs s
  have hfit := y_lt_of_legalOutputs hlegal
  refine ⟨_, hstep, hfit, fun c x prev => ⟨?_, ?_, fun hle => ?_⟩⟩
  · exact transact_outputs_congr prev rfl (toNat_mod_eq_low o.y (cmdBits c)) rfl
  · exact transact_outputs_congr prev rfl rfl (toNat_mod_eq_low o.y (cmdBits c))
  · exact Nat.mod_eq_of_lt (hfit.trans_le (Nat.pow_le_pow_right Nat.two_pos hle))

end Sys2Proof.Proofs
end

section
/-! The command word as fields (30_encoding.md R50 to R61): which words are legal, packing and unpacking, and the canonical
word of what a word decodes to. -/

namespace Sys2Proof.Machine

open Sys2Proof.Safety

/-! ## Which words are legal -/

/-- A word is illegal by its reserved bits or by an opcode above 13 (R57). -/
theorem illegalWord_iff (c : CmdWord) : IllegalWord c ↔ cmdRsv c ≠ 0#2 ∨ ¬ (cmdOp c).toNat < 14 := by
  have hop : cmdOp c = 14#4 ∨ cmdOp c = 15#4 ↔ ¬ (cmdOp c).toNat < 14 := by
    simp only [← BitVec.toNat_inj, BitVec.toNat_ofNat]
    omega
  exact or_congr_right hop

theorem not_illegalWord_iff (c : CmdWord) : ¬ IllegalWord c ↔ cmdRsv c = 0#2 ∧ (cmdOp c).toNat < 14 := by
  rw [illegalWord_iff, not_or, not_not, not_not]

theorem decode_ok_iff (c : CmdWord) : (∃ i, decode c = .ok i) ↔ ¬ IllegalWord c := by
  rw [not_illegalWord_iff]
  constructor
  · rintro ⟨i, hi⟩
    obtain ⟨hrsv, hop, -⟩ := legal_of_decode_ok hi
    exact ⟨hrsv, hop⟩
  · rintro ⟨hrsv, hop⟩
    rw [decode_of_rsv_zero hrsv, decodeOp_ok_iff]
    exact hop

theorem decode_error_iff (c : CmdWord) : (∃ e, decode c = .error e) ↔ IllegalWord c := by
  rw [← not_iff_not, ← decode_ok_iff]
  cases decode c <;> simp

theorem step_of_illegalWord {s : State} (h : IllegalWord s.inputs.cmd) :
    step s = .next { s with outputs := failed s.inputs 1 } := by
  obtain ⟨i, hi, -⟩ | ⟨-, -, hstep⟩ := step_cases s
  · exact absurd h ((decode_ok_iff _).mp ⟨i, hi⟩)
  · exact hstep

/-! ## Operand bytes -/

theorem signedByte_iff (x : Int) : signedByte x = true ↔ -128 ≤ x ∧ x ≤ 127 := by
  simp [signedByte]

theorem toInt_byteOf {x : Int} (h : signedByte x = true) : (byteOf x).toInt = x := by
  rw [signedByte_iff] at h
  rw [byteOf, BitVec.toInt_ofInt, Int.bmod_eq_of_le] <;> omega

theorem s8_byteOf {x : Int} (h : signedByte x = true) : s8 (byteOf x) = x := by
  rw [s8_eq_toInt, toInt_byteOf h]

theorem signedByte_s8 (x : BitVec 8) : signedByte (s8 x) = true := by
  revert x; decide

theorem byteOf_s8 (x : BitVec 8) : byteOf (s8 x) = x := by
  rw [byteOf, s8_eq_toInt, BitVec.ofInt_toInt]

theorem unsignedByte_toNat (x : BitVec 8) : unsignedByte x.toNat = true :=
  decide_eq_true (by have := x.isLt; omega)

theorem toNat_ofNat_of_unsignedByte {x : Nat} (h : unsignedByte x = true) : (BitVec.ofNat 8 x).toNat = x := by
  have hx : x ≤ 255 := of_decide_eq_true h
  rw [BitVec.toNat_ofNat]
  omega

/-! ## Packing and unpacking -/

theorem widthOfWsel_wsel (w : Width) : widthOfWsel w.wsel = w := by
  cases w <;> rfl

theorem wsel_widthOfWsel (x : BitVec 2) : (widthOfWsel x).wsel = x := by
  revert x; decide

/-- R50: a word is the sum of its fields, each at its place. -/
theorem toNat_eq_fields (c : CmdWord) :
    c.toNat = (cmdLen c).toNat * 2 ^ 16 + (cmdPos c).toNat * 2 ^ 8 + (cmdRsv c).toNat * 2 ^ 6
      + (cmdWsel c).toNat * 2 ^ 4 + (cmdOp c).toNat := by
  rw [toNat_cmdLen, toNat_cmdPos, toNat_cmdRsv, toNat_cmdWsel, toNat_cmdOp]
  omega

/-- Packing the fields of a legal word again gives the word. -/
theorem packCmd_cmdFields {c : CmdWord} (h : cmdRsv c = 0#2) :
    packCmd (cmdLen c) (cmdPos c) (widthOfWsel (cmdWsel c)) (cmdOp c).toNat = c := by
  apply BitVec.eq_of_toNat_eq
  rw [packCmd_toNat _ _ _ _ (cmdOp c).isLt, wsel_widthOfWsel, toNat_eq_fields c, h, BitVec.toNat_zero]
  omega

theorem packCmd_and_posMask (len pos : BitVec 8) (w : Width) {op : Nat} (h : op < 16) :
    packCmd len pos w op &&& 0x00FFFF#24 = packCmd 0 pos w op := by
  have hmask : (0x00FFFF#24).toNat = 2 ^ 16 - 1 := rfl
  have hpos := pos.isLt
  have hwsel := w.wsel.isLt
  apply BitVec.eq_of_toNat_eq
  rw [BitVec.toNat_and, hmask, Nat.and_two_pow_sub_one_eq_mod, packCmd_toNat _ _ _ _ h, packCmd_toNat _ _ _ _ h,
    show (0 : BitVec 8).toNat = 0 from rfl]
  omega

theorem packCmd_and_controlMask (len pos : BitVec 8) (w : Width) {op : Nat} (h : op < 16) :
    packCmd len pos w op &&& 0x0000FF#24 = packCmd 0 0 w op := by
  have hmask : (0x0000FF#24).toNat = 2 ^ 8 - 1 := rfl
  have hwsel := w.wsel.isLt
  apply BitVec.eq_of_toNat_eq
  rw [BitVec.toNat_and, hmask, Nat.and_two_pow_sub_one_eq_mod, packCmd_toNat _ _ _ _ h, packCmd_toNat _ _ _ _ h,
    show (0 : BitVec 8).toNat = 0 from rfl]
  omega

theorem decode_packCmd (len pos : BitVec 8) (w : Width) {op : Nat} (h : op < 16) :
    decode (packCmd len pos w op) = decodeOp (BitVec.ofNat 4 op) w pos len := by
  obtain ⟨hop, hwsel, hrsv, hpos, hlen⟩ := packCmd_fields len pos w op h
  rw [decode_of_rsv_zero hrsv, hop, hwsel, hpos, hlen, widthOfWsel_wsel]

/-! ## Decoding against encoding -/

/-- Decoding inverts encoding on every instruction whose operands fit their bytes (R60). -/
theorem decode_encode {i : Instr} (h : i.wellFormed = true) : decode (encode i) = .ok i := by
  cases i with
  | fmask w x y | imask w x y | rdf w x y | wrf w x y =>
    obtain ⟨hx, hy⟩ := (Bool.and_eq_true _ _).mp h
    rw [encode, decode_packCmd _ _ _ (by decide)]
    simp [decodeOp, s8_byteOf hx, s8_byteOf hy]
  | setb w x | clrb w x | tglb w x | tstb w x =>
    rw [encode, decode_packCmd _ _ _ (by decide)]
    simp [decodeOp, s8_byteOf h]
  | rol w shift | ror w shift =>
    rw [encode, decode_packCmd _ _ _ (by decide)]
    simp only [decodeOp, toNat_ofNat_of_unsignedByte h]
    rfl
  | popc w | par w | fsb w | isp2 w => exact decode_packCmd _ _ _ (by decide)

/-- Operands taken from bytes fit them. -/
theorem wellFormed_of_decodeOp {op : BitVec 4} {w : Width} {pos len : BitVec 8} {i : Instr}
    (h : decodeOp op w pos len = .ok i) : i.wellFormed = true := by
  unfold decodeOp at h
  split at h <;> cases h <;> simp [Instr.wellFormed, signedByte_s8, unsignedByte_toNat]

/-- The canonical word keeps the opcode, the width, `POS` for opcodes 0 to 9 and `LEN` for 0 to 3 (R54, R55, R60). -/
theorem encode_of_decodeOp {op : BitVec 4} {w : Width} {pos len : BitVec 8} {i : Instr}
    (h : decodeOp op w pos len = .ok i) :
    encode i = packCmd (if op.toNat ≤ 3 then len else 0) (if op.toNat ≤ 9 then pos else 0) w op.toNat := by
  unfold decodeOp at h
  generalize op.toNat = k at *
  split at h <;> cases h <;> simp [encode, byteOf_s8]

theorem decode_ok_fields {c : CmdWord} {i : Instr} (h : decode c = .ok i) :
    cmdRsv c = 0#2 ∧ decodeOp (cmdOp c) (widthOfWsel (cmdWsel c)) (cmdPos c) (cmdLen c) = .ok i := by
  obtain ⟨hrsv, -, -⟩ := legal_of_decode_ok h
  exact ⟨hrsv, (decode_of_rsv_zero hrsv).symm.trans h⟩

theorem wellFormed_of_decode {c : CmdWord} {i : Instr} (h : decode c = .ok i) : i.wellFormed = true :=
  wellFormed_of_decodeOp (decode_ok_fields h).2

/-- The canonical word of what a word decodes to: the word with 0 in every field the operation does not read (R60). -/
theorem encode_of_decode {c : CmdWord} {i : Instr} (h : decode c = .ok i) :
    encode i = if (cmdOp c).toNat ≤ 3 then c else if (cmdOp c).toNat ≤ 9 then c &&& 0x00FFFF#24
      else c &&& 0x0000FF#24 := by
  obtain ⟨hrsv, hdecode⟩ := decode_ok_fields h
  have hc := packCmd_cmdFields hrsv
  rw [encode_of_decodeOp hdecode]
  split_ifs with h3 h9 h9
  · exact hc
  · omega
  · rw [← packCmd_and_posMask (cmdLen c) _ _ (cmdOp c).isLt, hc]
  · rw [← packCmd_and_controlMask (cmdLen c) (cmdPos c) _ (cmdOp c).isLt, hc]

end Sys2Proof.Machine

namespace Sys2Proof.Proofs

open Sys2Proof.Machine Sys2Proof.Safety

/-- Settles O6: packing and unpacking are inverse field by field, and an operand that fits its byte survives the byte. -/
theorem decodeEncodeAgree : Obligations.DecodeEncodeAgree := by
  unfold Obligations.DecodeEncodeAgree
  refine ⟨fun i => decode_encode, fun c i h => ⟨wellFormed_of_decode h, encode_of_decode h⟩, decode_error_iff,
    fun x hlow hneg => ?_, rfl⟩
  rw [byteOf, BitVec.toNat_ofInt]
  omega

end Sys2Proof.Proofs
end

section
/-! What the encoding statements say of a step (30_encoding.md R50 to R61): the fields an opcode reads, the rows of the
opcode table, the count of the legal words, and the inputs that no output depends on. -/

namespace Sys2Proof.Machine

open Sys2Proof.Safety

/-! ## The fields that an opcode reads -/

theorem toNat_extractLsb'_zero {n : Nat} (x : BitVec n) (k : Nat) : (x.extractLsb' 0 k).toNat = x.toNat % 2 ^ k := by
  rw [BitVec.extractLsb'_toNat, Nat.shiftRight_zero]

/-- An entry of the opcode map is how words of that opcode are read. -/
theorem encodedAs_of_decodeOp {op : BitVec 4} {mk : Width → BitVec 8 → BitVec 8 → Instr}
    (h : ∀ w pos len, decodeOp op w pos len = .ok (mk w pos len)) : EncodedAs op mk := by
  intro c hrsv hop
  rw [decode_of_rsv_zero hrsv, show cmdOp c = op from hop]
  exact h _ _ _

/-! ## The rows of the opcode table -/

/-- The mask of the opcode table keeps the reserved bits and the opcode. -/
theorem fields_and_rowMask (c : CmdWord) :
    cmdRsv (c &&& 0x0000CF#24) = cmdRsv c ∧ cmdOp (c &&& 0x0000CF#24) = cmdOp c := by
  constructor
  · rw [cmdRsv, BitVec.extractLsb'_and]
    exact BitVec.and_allOnes
  · rw [cmdOp, BitVec.extractLsb'_and]
    exact BitVec.and_allOnes

/-- A word matches row `k` exactly by its reserved bits and its opcode (R61). -/
theorem and_rowMask_eq_iff (c : CmdWord) {k : Nat} (hk : k < 16) :
    c &&& 0x0000CF#24 = BitVec.ofNat 24 k ↔ cmdRsv c = 0#2 ∧ (cmdOp c).toNat = k := by
  constructor
  · intro h
    obtain ⟨hrsv, hop⟩ := fields_and_rowMask c
    rw [← hrsv, ← hop, h, ← BitVec.toNat_inj, toNat_cmdRsv, toNat_cmdOp, BitVec.toNat_ofNat, BitVec.toNat_zero]
    omega
  · rintro ⟨hrsv, rfl⟩
    rw [Laws.and_rowMask c hrsv, BitVec.ofNat_toNat]

/-- The canonical word of what a word decodes to matches the rows that the word matches. -/
theorem encode_and_rowMask {c : CmdWord} {i : Instr} (h : decode c = .ok i) :
    encode i &&& 0x0000CF#24 = c &&& 0x0000CF#24 := by
  obtain ⟨hrsv, hdecode⟩ := decode_ok_fields h
  rw [encode_of_decodeOp hdecode, Laws.packCmd_row _ _ _ _ (cmdOp c).isLt, eq_comm,
    and_rowMask_eq_iff c (cmdOp c).isLt]
  exact ⟨hrsv, rfl⟩

/-! ## Counting the legal words -/

/-- The decoder's verdict by the low 8 bits of the word alone (R57). -/
theorem isOk_decode_ofNat (n : Nat) :
    (decode (BitVec.ofNat 24 n)).isOk = true ↔ n / 64 % 4 = 0 ∧ n % 16 < 14 := by
  have hok : ∀ r : Except DecodeError Instr, r.isOk = true ↔ ∃ i, r = .ok i := by
    rintro (e | i)
    · exact iff_of_false Bool.false_ne_true nofun
    · exact iff_of_true rfl ⟨i, rfl⟩
  rw [hok, decode_ok_iff, not_illegalWord_iff, ← BitVec.toNat_inj, toNat_cmdRsv, toNat_cmdOp, BitVec.toNat_ofNat,
    BitVec.toNat_zero]
  omega

/-- A predicate of period `a` holds equally often in each of `m` periods. -/
theorem count_mul_of_periodic {p : Nat → Prop} [DecidablePred p] {a : Nat} (h : ∀ k, p (a + k) ↔ p k) (m : Nat) :
    Nat.count p (a * m) = m * Nat.count p a := by
  induction m with
  | zero => simp
  | succ m ih =>
    rw [Nat.mul_succ, Nat.add_comm, Nat.count_add, Nat.succ_mul, Nat.add_comm, ← ih]
    simp only [h]

/-- 14 opcodes at 4 widths are legal among the 2^8 control bytes, each under 2^16 values of `POS` and `LEN` (R57). -/
theorem card_legal_words :
    ((Finset.range (2 ^ 24)).filter fun n => (decode (BitVec.ofNat 24 n)).isOk = true).card = 3670016 := by
  have hcontrol : Nat.count (fun n => n / 64 % 4 = 0 ∧ n % 16 < 14) (2 ^ 8) = 56 := by decide +kernel
  simp only [isOk_decode_ofNat]
  rw [← Nat.count_eq_card_filter_range, show 2 ^ 24 = 2 ^ 8 * 2 ^ 16 by norm_num,
    count_mul_of_periodic (fun k => by omega), hcontrol]
  norm_num

theorem card_filter_eq_false {p : Nat → Bool} {m k : Nat}
    (h : ((Finset.range m).filter fun n => p n = true).card = k) :
    ((Finset.range m).filter fun n => p n = false).card = m - k := by
  have hall := Finset.card_filter_add_card_filter_not (s := Finset.range m) (fun n => p n = true)
  simp only [Bool.not_eq_true, Finset.card_range, h] at hall
  omega

theorem card_illegal_words :
    ((Finset.range (2 ^ 24)).filter fun n => (decode (BitVec.ofNat 24 n)).isOk = false).card = 13107200 :=
  (card_filter_eq_false card_legal_words).trans (by norm_num)

/-! ## Inputs that an operation does not read -/

theorem illegalWord_congr {c c' : CmdWord} (hop : c.extractLsb' 0 4 = c'.extractLsb' 0 4)
    (hrsv : c.extractLsb' 6 2 = c'.extractLsb' 6 2) : IllegalWord c ↔ IllegalWord c' := by
  unfold IllegalWord
  rw [hop, hrsv]

/-- Agreement on the fields read: the same control byte, and the same `POS` and `LEN` where the opcode reads them. -/
theorem control_of_sameReadFields {c c' : CmdWord} (h : SameReadFields c c') :
    cmdOp c = cmdOp c' ∧ cmdWsel c = cmdWsel c' ∧ cmdRsv c = cmdRsv c' := by
  have hlow : c.toNat % 2 ^ 8 = c'.toNat % 2 ^ 8 := by
    rw [← toNat_extractLsb'_zero, ← toNat_extractLsb'_zero, h.1]
  refine ⟨BitVec.eq_of_toNat_eq ?_, BitVec.eq_of_toNat_eq ?_, BitVec.eq_of_toNat_eq ?_⟩
  · rw [toNat_cmdOp, toNat_cmdOp]; omega
  · rw [toNat_cmdWsel, toNat_cmdWsel]; omega
  · rw [toNat_cmdRsv, toNat_cmdRsv]; omega

/-- The decoder drops the fields that the operation does not read (R56): two words have one canonical word. -/
theorem decode_of_sameReadFields {c c' : CmdWord} (h : SameReadFields c c') {i : Instr} (hi : decode c = .ok i) :
    decode c' = .ok i := by
  obtain ⟨hop, hwsel, hrsv⟩ := control_of_sameReadFields h
  obtain ⟨-, hpos, hlen⟩ := h
  have hlegal := mt (illegalWord_congr hop hrsv).mpr ((decode_ok_iff c).mp ⟨i, hi⟩)
  obtain ⟨i', hi'⟩ := (decode_ok_iff c').mpr hlegal
  have hencode : encode i = encode i' := by
    rw [encode_of_decodeOp (decode_ok_fields hi).2, encode_of_decodeOp (decode_ok_fields hi').2, ← hop, ← hwsel]
    congr 1
    · exact ite_congr rfl hlen fun _ => rfl
    · exact ite_congr rfl hpos fun _ => rfl
  have hsame := decode_encode (wellFormed_of_decode hi)
  rw [hencode, decode_encode (wellFormed_of_decode hi')] at hsame
  rw [hi', hsame]

/-- The second outcome shows what the first one shows, but for `EINFO` on an error, where each shows its own word. -/
def AgreeButEinfo (s s' : State) (r r' : Host.Outcome State Fault Refusal) : Prop :=
  ∃ t t', r = .next t ∧ r' = .next t' ∧
    { t'.outputs with einfo := t.outputs.einfo } = t.outputs ∧ (t.outputs.err = 0 → t'.outputs = t.outputs) ∧
    (t.outputs.err ≠ 0 → t.outputs.einfo = s.inputs.cmd ∧ t'.outputs.einfo = s'.inputs.cmd)

theorem agreeButEinfo_failed {s s' : State} (hwsel : cmdWsel s.inputs.cmd = cmdWsel s'.inputs.cmd) {code : BitVec 3}
    (hcode : code ≠ 0) :
    AgreeButEinfo s s' (.next { s with outputs := failed s.inputs code })
      (.next { s' with outputs := failed s'.inputs code }) := by
  have hwtag : s'.inputs.cmd.extractLsb' 4 2 = s.inputs.cmd.extractLsb' 4 2 := hwsel.symm
  exact ⟨_, _, rfl, rfl, by simp only [failed, hwtag], fun h => absurd h hcode, fun _ => ⟨rfl, rfl⟩⟩

theorem agreeButEinfo_succeed {s s' : State} (hwsel : cmdWsel s.inputs.cmd = cmdWsel s'.inputs.cmd) (y : PortWord)
    (k : BitVec 8) (t : Bool) : AgreeButEinfo s s' (.next (succeed y k t s)) (.next (succeed y k t s')) := by
  have hout : (succeed y k t s').outputs = (succeed y k t s).outputs := by
    rw [succeed, succeed, widthTag, widthTag, hwsel]
  exact ⟨_, _, rfl, rfl, by rw [hout], fun _ => hout, (absurd rfl ·)⟩

theorem agreeButEinfo_checked {s s' : State} (hwsel : cmdWsel s.inputs.cmd = cmdWsel s'.inputs.cmd)
    (check : Option ErrCode) (y : PortWord) (k : BitVec 8) (t : Bool) :
    AgreeButEinfo s s' (checked check s (succeed y k t s)) (checked check s' (succeed y k t s')) := by
  cases check with
  | none => exact agreeButEinfo_succeed hwsel y k t
  | some e => exact agreeButEinfo_failed hwsel (errNumber_ne_zero e)

/-- The row of the opcode table that an operation has is its opcode (R52, R61). -/
theorem rowMatch_of_decodeOp {op : BitVec 4} {w : Width} {pos len : BitVec 8} {i : Instr}
    (h : decodeOp op w pos len = .ok i) : (Laws.rowMatch i).toNat = op.toNat := by
  unfold decodeOp at h
  generalize op.toNat = k at *
  split at h <;> cases h <;> rfl

/-- Of the ports an operation uses `A` for opcodes 2 to 13 and `B` for opcode 3; `CMD` it copies to `EINFO` and the tag. -/
theorem exec_agreeButEinfo {i : Instr} {s s' : State} (hwsel : cmdWsel s.inputs.cmd = cmdWsel s'.inputs.cmd)
    (ha : 2 ≤ (Laws.rowMatch i).toNat → s.inputs.a = s'.inputs.a)
    (hb : (Laws.rowMatch i).toNat = 3 → s.inputs.b = s'.inputs.b) : AgreeButEinfo s s' (exec i s) (exec i s') := by
  obtain ⟨⟨c, a, b⟩, o⟩ := s
  obtain ⟨⟨c', a', b'⟩, o'⟩ := s'
  cases i with
  | fmask | imask => exact agreeButEinfo_checked hwsel _ _ _ _
  | rdf | setb | clrb | tglb | tstb =>
    obtain rfl : a = a' := ha (by simp [Laws.rowMatch])
    exact agreeButEinfo_checked hwsel _ _ _ _
  | wrf =>
    obtain rfl : a = a' := ha (by simp [Laws.rowMatch])
    obtain rfl : b = b' := hb rfl
    exact agreeButEinfo_checked hwsel _ _ _ _
  | rol | ror | popc | par | fsb | isp2 =>
    obtain rfl : a = a' := ha (by simp [Laws.rowMatch])
    exact agreeButEinfo_succeed hwsel _ _ _

end Sys2Proof.Machine

namespace Sys2Proof.Proofs

open Sys2Proof.Machine Sys2Proof.Safety

/-- Settles O2: legality does not look at `WSEL`; the step is the integer block, which reduces `A` and `B` modulo 2^N, and a
legal result is below 2^N. -/
theorem wselSelectsTheWidth : Obligations.WselSelectsTheWidth := by
  unfold Obligations.WselSelectsTheWidth
  refine ⟨bits_widthOfWsel, rfl, rfl, rfl, rfl, fun w => ⟨w.wsel, widthOfWsel_wsel w⟩, fun c c' hop hrsv => ?_,
    fun s s' hcmd ha hb => ?_⟩
  · rw [decode_ok_iff, decode_ok_iff, illegalWord_congr hop hrsv]
  · obtain ⟨o, hstep, hlegal⟩ := step_legalOutputs s
    have hblock : o = Reference.block s.inputs := by
      rw [stepIsTheBlockFunction s] at hstep
      cases hstep
      rfl
    exact ⟨_, _, hstep, stepIsTheBlockFunction s', hblock.trans (block_congr hcmd ha hb), y_lt_of_legalOutputs hlegal⟩

/-- Settles O3: the opcode map, entry by entry, with its signed reading that of two's complement. -/
theorem fieldsAreReadByOpcode : Obligations.FieldsAreReadByOpcode := by
  unfold Obligations.FieldsAreReadByOpcode
  simp only [← s8_eq_toInt]
  refine ⟨fun x hlow hhigh => ?_, fun x => (signedByte_iff _).mp (signedByte_s8 x), ?_, ?_, ?_, ?_, ?_, ?_, ?_, ?_, ?_, ?_,
    ?_, ?_, ?_, ?_, fun pos k _ => ?_⟩
  · exact s8_byteOf ((signedByte_iff x).mpr ⟨hlow, hhigh⟩)
  iterate 14 exact encodedAs_of_decodeOp fun _ _ _ => rfl
  · rw [toNat_extractLsb'_zero, Nat.shiftLeft_eq, pow_add]
    rfl

/-- Settles O4: the decoder's verdict has period 2^8 in the word, with 56 legal control bytes; `SETB.8` with index 8 is legal
and fails with error 2. -/
theorem illegalWordsAreCounted : Obligations.IllegalWordsAreCounted := by
  unfold Obligations.IllegalWordsAreCounted
  exact ⟨decode_error_iff, fun _ => step_of_illegalWord, card_legal_words, card_illegal_words,
    presentCmd 0x000804#24 State.reset, _, by decide, rfl, rfl⟩

/-- Settles O5: a step runs the decoded operation or rejects the word; the all-ones word has reserved bits 11. -/
theorem everyWordIsDefined : Obligations.EveryWordIsDefined := by
  unfold Obligations.EveryWordIsDefined
  refine ⟨fun s => ?_, rfl, fun s => step_of_cmd_zero, fun s hcmd => ?_⟩
  · exact (step_cases s).imp_right fun ⟨_, _, hstep⟩ => hstep
  · have hillegal : IllegalWord s.inputs.cmd := by
      rw [hcmd]
      decide
    refine ⟨_, step_of_illegalWord hillegal, rfl, ?_⟩
    rw [failed, hcmd]
    rfl

/-- Settles O7: masked, a word is its reserved bits and its opcode, and so is the canonical word of what it decodes to. -/
theorem opcodeTableRowsSelect : Obligations.OpcodeTableRowsSelect := by
  unfold Obligations.OpcodeTableRowsSelect
  refine ⟨fun c k hk => ⟨fun hrow => ?_, ?_⟩, fun c => ?_⟩
  · obtain ⟨hrsv, hop⟩ := (and_rowMask_eq_iff c (by omega)).mp hrow
    obtain ⟨i, hi⟩ := (decode_ok_iff c).mpr ((not_illegalWord_iff c).mpr ⟨hrsv, by omega⟩)
    exact ⟨i, hi, (encode_and_rowMask hi).trans hrow⟩
  · rintro ⟨i, hi, hrow⟩
    rw [← encode_and_rowMask hi, hrow]
  · rw [← not_iff_not, not_illegalWord_iff]
    push Not
    constructor
    · rintro ⟨k, hk, hrow⟩
      obtain ⟨hrsv, hop⟩ := (and_rowMask_eq_iff c (by omega)).mp hrow
      exact ⟨hrsv, by omega⟩
    · rintro ⟨hrsv, hop⟩
      exact ⟨_, hop, (and_rowMask_eq_iff c (cmdOp c).isLt).mpr ⟨hrsv, rfl⟩⟩

/-- Settles O9: words that agree on the fields read decode to one instruction, whose result uses of the ports only those it
reads; illegal words fail alike. -/
theorem unreadInputsAreIgnored : Obligations.UnreadInputsAreIgnored := by
  unfold Obligations.UnreadInputsAreIgnored
  rintro s s' ⟨hfields, ha, hb⟩
  obtain ⟨hop, hwsel, hrsv⟩ := control_of_sameReadFields hfields
  change AgreeButEinfo s s' (step s) (step s')
  obtain ⟨i, hi, hstep⟩ | ⟨e, he, hstep⟩ := step_cases s
  · rw [hstep, step_of_decode_ok (decode_of_sameReadFields hfields hi)]
    have hrow : (Laws.rowMatch i).toNat = (cmdOp s.inputs.cmd).toNat := rowMatch_of_decodeOp (decode_ok_fields hi).2
    exact exec_agreeButEinfo hwsel (hrow ▸ ha) (hrow ▸ hb)
  · have hillegal := (illegalWord_congr hop hrsv).mp ((decode_error_iff _).mp ⟨e, he⟩)
    rw [hstep, step_of_illegalWord hillegal]
    exact agreeButEinfo_failed hwsel (by decide)

/-- Settles O1: the fields are the digits of the word in the radices of their places. -/
theorem commandWordIsItsFields : Obligations.CommandWordIsItsFields := by
  unfold Obligations.CommandWordIsItsFields
  exact toNat_eq_fields

/-- Settles O8: the decoder evaluated at fourteen fixed words. -/
theorem exampleWordsDecode : Obligations.ExampleWordsDecode := by
  unfold Obligations.ExampleWordsDecode
  exact ⟨rfl, rfl, rfl, rfl, rfl, rfl, rfl, rfl, rfl, rfl, rfl, rfl, rfl, rfl⟩

end Sys2Proof.Proofs
end

section
/-! Forms of results that the rules derive (30_encoding.md R54, 40_mask_builder.md R70, 44 to 47: R112, R115, R125): the zero
count, parity as a fold, and a power of two as a count of 1. -/

namespace Sys2Proof.Machine

open Sys2Proof.Safety

/-- The signed and the unsigned reading of a byte differ by 2^8, a multiple of each width (R54). -/
theorem toInt_emod_width (x : BitVec 8) {k : Nat} (hk : k < 4) :
    x.toInt % ((8 <<< k : Nat) : Int) = ((x.toNat % (8 <<< k) : Nat) : Int) := by
  have hdvd : ((8 <<< k : Nat) : Int) ∣ (2 ^ 8 : Nat) := by
    interval_cases k <;> decide
  rw [BitVec.toInt_eq_toNat_bmod, ← Int.emod_emod_of_dvd _ hdvd, Int.bmod_emod, Int.emod_emod_of_dvd _ hdvd,
    Int.natCast_emod]

theorem popcnt_eq_zero_iff {n : Nat} (v : RegVal n) : popcnt v = 0 ↔ v = 0#n := by
  rw [← leastSetBit_eq_none, popcnt, leastSetBit, List.countP_eq_zero, List.find?_eq_none]

theorem operandA_eq_zero_iff (n : Nat) (p : Inputs) : operandA n p = 0#n ↔ p.a.toNat % 2 ^ n = 0 := by
  rw [← BitVec.toNat_inj, toNat_operandA, BitVec.toNat_zero]

/-- A count on the 8-bit port is 0 only if the count is, since no count exceeds 64. -/
theorem ofInt_popcnt_eq_zero_iff {n : Nat} (hn : n ≤ 64) (v : RegVal n) :
    BitVec.ofInt 8 (popcnt v : Nat) = 0 ↔ popcnt v = 0 := by
  have hle := popcnt_le v
  rw [BitVec.ofInt_natCast, ← BitVec.toNat_inj, BitVec.toNat_ofNat]
  change popcnt v % 2 ^ 8 = 0 ↔ _
  omega

/-- The exclusive or of bits is true exactly when an odd number of them is. -/
theorem foldl_xor_eq_odd_countP (f : Nat → Bool) (l : List Nat) (init : Bool) :
    l.foldl (fun x k => x ^^ f k) init = (init ^^ (l.countP f % 2 == 1)) := by
  induction l generalizing init with
  | nil => simp
  | cons k l ih =>
    rw [List.foldl_cons, ih, List.countP_cons]
    rcases Nat.mod_two_eq_zero_or_one (l.countP f) with h | h <;> cases f k <;> simp [h, Nat.add_mod]

/-- Parity is the exclusive or of the N bits (R115). -/
theorem parity_operandA (n : Nat) (p : Inputs) :
    parity (operandA n p) = (List.range n).foldl (fun x k => x ^^ p.a.getLsbD k) false := by
  have hcount : popcnt (operandA n p) = (List.range n).countP p.a.getLsbD :=
    List.countP_congr fun k hk => by
      rw [getLsbD_operandA, decide_eq_true (List.mem_range.mp hk), Bool.true_and]
  rw [foldl_xor_eq_odd_countP, Bool.false_xor, parity, hcount]

theorem popcnt_eq_card {n : Nat} (v : RegVal n) :
    popcnt v = ((Finset.range n).filter fun k => v.toNat.testBit k = true).card := by
  rw [popcnt_eq_sum, Finset.card_filter]
  refine Finset.sum_congr rfl fun k _ => ?_
  rw [← Nat.toNat_testBit]
  cases v.toNat.testBit k <;> rfl

/-- A number below 2^n has one set bit exactly when it is a power of two (R125). -/
theorem popcnt_eq_one_iff {n : Nat} (v : RegVal n) : popcnt v = 1 ↔ ∃ k, k < n ∧ v.toNat = 2 ^ k := by
  rw [popcnt_eq_card, Finset.card_eq_one]
  constructor
  · rintro ⟨k, hk⟩
    have hmem (j : Nat) : j < n ∧ v.toNat.testBit j = true ↔ j = k := by
      simpa using congrArg (j ∈ ·) hk
    refine ⟨k, ((hmem k).mpr rfl).1, Nat.eq_of_testBit_eq fun j => ?_⟩
    rw [Nat.testBit_two_pow, Bool.eq_iff_iff, decide_eq_true_eq, eq_comm (a := k), ← hmem j, iff_and_self]
    intro hbit
    exact BitVec.lt_of_getLsbD (BitVec.testBit_toNat v ▸ hbit)
  · rintro ⟨k, hk, hv⟩
    refine ⟨k, Finset.ext fun j => ?_⟩
    rw [Finset.mem_filter, Finset.mem_range, hv, Nat.testBit_two_pow, decide_eq_true_eq, Finset.mem_singleton]
    omega

theorem power_eq_true_iff (n a : Nat) : Reference.power n a = true ↔ ∃ k, k < n ∧ a = 2 ^ k := by
  simp [Reference.power]

theorem popcnt_operandA (n : Nat) (p : Inputs) : popcnt (operandA n p) = bitSum n p.a.toNat := by
  rw [popcnt_eq_sum, toNat_operandA]
  refine Finset.sum_congr rfl fun k hk => ?_
  rw [← Nat.toNat_testBit, ← Nat.toNat_testBit, Nat.testBit_mod_two_pow, decide_eq_true (Finset.mem_range.mp hk),
    Bool.true_and]

end Sys2Proof.Machine

namespace Sys2Proof.Proofs

open Sys2Proof.Machine Sys2Proof.Safety

/-- Settles O50: every form is one of the population count of the operand, which the operations compute. -/
theorem derivedFormsOfResults : Obligations.DerivedFormsOfResults := by
  unfold Obligations.DerivedFormsOfResults
  refine ⟨fun pos k => toInt_emod_width pos, fun w len => toNat_fwdMask, fun w v b => ?_, fun w s => ?_, fun w s => ?_⟩
  · refine ⟨BitVec.ofInt 8 (popcnt (v.setWidth w.bits) : Nat), ?_, ?_⟩
    · rintro s rfl rfl
      rfl
    · rw [ofInt_popcnt_eq_zero_iff (bits_le w), popcnt_eq_zero_iff]
      exact operandA_eq_zero_iff w.bits { cmd := 0, a := v, b := b }
  · rw [← parity_operandA]
    rfl
  · refine ⟨isPowerOfTwo (operandA w.bits s.inputs), rfl, ?_, ?_⟩
    · rw [isPowerOfTwo_eq_power, power_eq_true_iff, toNat_operandA]
    · rw [isPowerOfTwo_eq_power, power_eq_true_iff, ← popcnt_eq_one_iff, popcnt_operandA]

end Sys2Proof.Proofs
end

section
/-! The Mask Builder (40_mask_builder.md R70 to R75): the four operations on a field answer one check, the empty field,
and how many bits a mask has. -/

namespace Sys2Proof.Machine

open Sys2Proof.Safety

/-! ## Operations on a field: one check, then a value of the data ports -/

/-- The four operations that take a Field Descriptor (R73, R80). -/
abbrev IsFieldOp (w : Width) (start len : Int) (i : Instr) : Prop :=
  i = .fmask w len start ∨ i = .imask w len start ∨ i = .rdf w start len ∨ i = .wrf w start len

/-- Each of the four answers an invalid descriptor with the code of the first failing precondition (R73). -/
theorem IsFieldOp.failsWith {w : Width} {start len : Int} {i : Instr} (hi : IsFieldOp w start len i)
    (h : ¬ ValidField w.bits start len) : FailsWith i (fieldCode start len) := by
  intro s
  obtain rfl | rfl | rfl | rfl := hi <;> exact checked_descriptor_of_invalid h s _

section Delivers

variable {w : Width} {start len : Int} (h : ValidField w.bits start len) (a b : PortWord)

include h

theorem deliversY_fmask : DeliversY (.fmask w len start) a b (zext64 (forwardMask w.bits len.toNat start.toNat)) :=
  fun s _ _ => checked_descriptor_of_valid h s _

theorem deliversY_imask : DeliversY (.imask w len start) a b (zext64 (inverseMask w.bits len.toNat start.toNat)) :=
  fun s _ _ => checked_descriptor_of_valid h s _

theorem deliversY_rdf :
    DeliversY (.rdf w start len) a b (zext64 (readField (a.setWidth w.bits) start.toNat len.toNat)) := by
  rintro s rfl rfl
  exact checked_descriptor_of_valid h s _

theorem deliversY_wrf : DeliversY (.wrf w start len) a b
    (zext64 (writeField (a.setWidth w.bits) start.toNat len.toNat (b.setWidth w.bits))) := by
  rintro s rfl rfl
  exact checked_descriptor_of_valid h s _

end Delivers

theorem IsFieldOp.delivers {w : Width} {start len : Int} {i : Instr} (hi : IsFieldOp w start len i)
    (h : ValidField w.bits start len) (a b : PortWord) : ∃ y, DeliversY i a b y := by
  obtain rfl | rfl | rfl | rfl := hi
  · exact ⟨_, deliversY_fmask h a b⟩
  · exact ⟨_, deliversY_imask h a b⟩
  · exact ⟨_, deliversY_rdf h a b⟩
  · exact ⟨_, deliversY_wrf h a b⟩

/-- POPC of a result of the same width counts the bits of that result (R110). -/
theorem deliversS_popc_zext64 {w : Width} {r : RegVal w.bits} {k : Int} (hcount : (popcnt r : Int) = k)
    (b : PortWord) : DeliversS (.popc w) (zext64 r) b (BitVec.ofInt 8 k) := by
  intro s ha _
  rw [← hcount, ← operandA_zext64 w r s.inputs ha]
  rfl

theorem step_of_cmd_eq {s : State} {c : CmdWord} {i : Instr} (hcmd : s.inputs.cmd = c) (h : decode c = .ok i) :
    step s = exec i s :=
  step_of_decode_ok (hcmd ▸ h)

/-- A valid descriptor in natural numbers. -/
theorem toNat_add_toNat_le_of_valid {n : Nat} {start len : Int} (h : ValidField n start len) :
    start.toNat + len.toNat ≤ n := by
  obtain ⟨hstart, hlen, hfit⟩ := h
  omega

/-! ## Masks -/

theorem zext64_eq_ofNat {n : Nat} (r : RegVal n) : zext64 r = BitVec.ofNat 64 r.toNat :=
  (BitVec.ofNat_toNat 64 r).symm

@[simp] theorem forwardMask_start_zero (n len : Nat) : forwardMask n len 0 = fwdMask n len :=
  BitVec.shiftLeft_zero _

@[simp] theorem fwdMask_len_zero (n : Nat) : fwdMask n 0 = 0 :=
  BitVec.eq_of_toNat_eq (toNat_fwdMask (Nat.zero_le n))

theorem fwdMask_len_one {n : Nat} (h : 0 < n) : fwdMask n 1 = 1 := by
  apply BitVec.eq_of_toNat_eq
  rw [toNat_fwdMask h]
  exact (Nat.mod_eq_of_lt (Nat.one_lt_two_pow h.ne')).symm

@[simp] theorem forwardMask_len_zero (n start : Nat) : forwardMask n 0 start = 0 := by
  simp [forwardMask]

@[simp] theorem inverseMask_len_zero (n start : Nat) : inverseMask n 0 start = BitVec.allOnes n := by
  simp [inverseMask]

/-- An empty field reads as 0 (R74, R81). -/
@[simp] theorem readField_len_zero {n : Nat} (a : RegVal n) (start : Nat) : readField a start 0 = 0 := by
  simp [readField]

/-- Writing an empty field leaves the register (R74, R82). -/
@[simp] theorem writeField_len_zero {n : Nat} (a b : RegVal n) (start : Nat) : writeField a start 0 b = a := by
  simp [writeField]

/-- The bits of a forward mask are those of an interval of length `len`. -/
theorem popcnt_forwardMask {n len start : Nat} (h : start + len ≤ n) : popcnt (forwardMask n len start) = len := by
  have hbits : ((Finset.range n).filter fun k => (forwardMask n len start).toNat.testBit k = true) =
      Finset.Ico start (start + len) := by
    ext k
    rw [Finset.mem_filter, Finset.mem_range, Finset.mem_Ico, BitVec.testBit_toNat, getLsbD_forwardMask h,
      decide_eq_true_eq]
    omega
  rw [popcnt_eq_card, hbits, Nat.card_Ico, Nat.add_sub_cancel_left]

/-- Each of the N bits is set in a value or in its complement (R112). -/
theorem popcnt_add_popcnt_not {n : Nat} (v : RegVal n) : popcnt v + popcnt (~~~ v) = n := by
  have hnot : popcnt (~~~ v) = (List.range n).countP fun k => ¬ v.getLsbD k = true :=
    List.countP_congr fun k hk => by
      simp [List.mem_range.mp hk]
  rw [hnot, popcnt, ← List.length_eq_countP_add_countP, List.length_range]

theorem forwardMask_and_inverseMask (n len start : Nat) : forwardMask n len start &&& inverseMask n len start = 0 :=
  BitVec.and_not_self _

theorem forwardMask_or_inverseMask (n len start : Nat) :
    forwardMask n len start ||| inverseMask n len start = BitVec.allOnes n :=
  BitVec.or_not_self _

end Sys2Proof.Machine

namespace Sys2Proof.Proofs

open Sys2Proof.Machine Sys2Proof.Safety

/-- Settles O20: the mask is 2^len - 1, and shifted by 0 it is what FMASK delivers. -/
theorem rightAlignedMask : Obligations.RightAlignedMask := by
  unfold Obligations.RightAlignedMask
  refine ⟨fun w len hlen => ⟨getLsbD_fwdMask hlen, fun hfull => if_pos hfull, fun hlt => ?_, fun a b => ?_⟩,
    fun w => ⟨fwdMask_len_zero _, fwdMask_len_one (bits_pos w)⟩, rfl, rfl, rfl⟩
  · rw [toNat_fwdMask hlen, one_mul, Nat.mod_eq_of_lt (Nat.pow_lt_pow_right one_lt_two hlt)]
  · have hvalid : ValidField w.bits 0 len := ⟨le_rfl, by omega, by omega⟩
    rw [← forwardMask_start_zero]
    exact deliversY_fmask hvalid a b

/-- Settles O21: a checked operation whose value is the forward mask as an integer. -/
theorem fmaskDeliversForwardMask : Obligations.FmaskDeliversForwardMask := by
  unfold Obligations.FmaskDeliversForwardMask
  simp only [← s8_eq_toInt]
  have hdelivers (w : Width) (len start : Int) (s : State) (h : ValidField w.bits start len) :
      exec (.fmask w len start) s =
        .next { s with outputs := okY s.inputs (BitVec.ofNat 64 ((2 ^ len.toNat - 1) * 2 ^ start.toNat)) } := by
    rw [deliversY_fmask h _ _ s rfl rfl, zext64_eq_ofNat, toNat_forwardMask (toNat_add_toNat_le_of_valid h)]
  refine ⟨encodedAs_of_decodeOp fun _ _ _ => rfl, hdelivers, fun w len start h => ?_, fun w len start s h => ?_,
    fun s hcmd => ?_⟩
  · rw [← toNat_forwardMask (toNat_add_toNat_le_of_valid h)]
    exact BitVec.isLt _
  · exact IsFieldOp.failsWith (.inl rfl) h s
  · rw [step_of_cmd_eq hcmd (i := .fmask .n16 5 4) rfl]
    exact hdelivers .n16 5 4 s (by decide)

/-- Settles O22: a checked operation whose value is the inverse mask as an integer. -/
theorem imaskDeliversInverseMask : Obligations.ImaskDeliversInverseMask := by
  unfold Obligations.ImaskDeliversInverseMask
  simp only [← s8_eq_toInt]
  have hdelivers (w : Width) (len start : Int) (s : State) (h : ValidField w.bits start len) :
      exec (.imask w len start) s = .next { s with outputs := okY s.inputs (BitVec.ofNat 64 (
        (2 ^ w.bits - 1) - (2 ^ len.toNat - 1) * 2 ^ start.toNat)) } := by
    rw [deliversY_imask h _ _ s rfl rfl, zext64_eq_ofNat, toNat_inverseMask (toNat_add_toNat_le_of_valid h)]
  refine ⟨encodedAs_of_decodeOp fun _ _ _ => rfl, hdelivers, fun w len start s h => ?_, fun s hcmd => ?_,
    fun s hcmd => ?_⟩
  · exact IsFieldOp.failsWith (.inr (.inl rfl)) h s
  · rw [step_of_cmd_eq hcmd (i := .imask .n8 0 0) rfl]
    exact hdelivers .n8 0 0 s (by decide)
  · rw [step_of_cmd_eq hcmd (i := .imask .n16 5 4) rfl]
    exact hdelivers .n16 5 4 s (by decide)

/-- Settles O23: the four operations share one check, whose code is that of the first failing precondition. -/
theorem descriptorsAreCheckedNotClamped : Obligations.DescriptorsAreCheckedNotClamped := by
  unfold Obligations.DescriptorsAreCheckedNotClamped
  intro w start len i hi
  have hfails {code : BitVec 3} (h : ¬ ValidField w.bits start len) (hcode : fieldCode start len = code) :
      FailsWith i code := hcode ▸ IsFieldOp.failsWith hi h
  refine ⟨fun hstart => ?_, fun hstart hlen => ?_, fun hstart hlen hover => ?_, IsFieldOp.delivers hi⟩
  · exact hfails (by omega) (if_pos hstart)
  · exact hfails (by omega) (by rw [fieldCode, if_neg (by omega), if_pos hlen])
  · exact hfails (by omega) (by rw [fieldCode, if_neg (by omega), if_neg (by omega)])

/-- Settles O24: at length 0 the mask is 0, so its inverse is all ones, nothing is read and nothing is written. -/
theorem emptyFieldAtTheTop : Obligations.EmptyFieldAtTheTop := by
  unfold Obligations.EmptyFieldAtTheTop
  intro w a b
  have h : ValidField w.bits w.bits 0 := ⟨by omega, le_rfl, by omega⟩
  refine ⟨?_, ?_, ?_, ?_⟩
  · simpa [zext64_eq_ofNat] using deliversY_fmask h a b
  · simpa [zext64_eq_ofNat] using deliversY_imask h a b
  · simpa [zext64_eq_ofNat] using deliversY_rdf h a b
  · simpa [zext64_eq_ofNat] using deliversY_wrf h a b

/-- Settles O25: the two masks are complements, and the forward mask is an interval of bits. -/
theorem maskLaws : Obligations.MaskLaws := by
  unfold Obligations.MaskLaws
  intro w len start h
  have hfit := toNat_add_toNat_le_of_valid h
  have hforward := popcnt_forwardMask hfit
  have hboth := popcnt_add_popcnt_not (forwardMask w.bits len.toNat start.toNat)
  rw [← inverseMask] at hboth
  have hvalid := h
  obtain ⟨hstart, hlen, hsum⟩ := hvalid
  have h0 : ValidField w.bits 0 len := ⟨le_rfl, hlen, by omega⟩
  refine ⟨_, _, _, deliversY_fmask h, deliversY_imask h, deliversY_fmask h0, deliversS_popc_zext64 (by omega),
    deliversS_popc_zext64 (by omega), ?_, ?_, ?_, fun k => ?_⟩
  · rw [zext64, zext64, ← BitVec.setWidth_and, forwardMask_and_inverseMask]
    exact BitVec.setWidth_zero _ _
  · rw [zext64, zext64, ← BitVec.setWidth_or, forwardMask_or_inverseMask]
    exact (toNat_zext64 (bits_le w) _).trans BitVec.toNat_allOnes
  · rw [toNat_zext64 (bits_le w), toNat_zext64 (bits_le w), Int.toNat_zero, forwardMask_start_zero, forwardMask,
      BitVec.toNat_shiftLeft, Nat.shiftLeft_eq]
  · rw [getLsbD_zext64 (bits_le w), getLsbD_forwardMask hfit, decide_eq_true_eq]
    omega

end Sys2Proof.Proofs
end

section
/-! The bit_field_accessor (41_bit_field_accessor.md R80 to R84): what reading and writing a field do to each other on
values of N bits, and what becomes of a result that is fed in again through a port. -/

namespace Sys2Proof.Machine

open Sys2Proof.Safety

/-! ## Reading and writing one field -/

section Field

variable {n start len : Nat} (h : start + len ≤ n) (a b : RegVal n)

include h

/-- The value written is truncated to the field, then read back (R83). -/
theorem readField_writeField : readField (writeField a start len b) start len = readField b 0 len := by
  apply BitVec.eq_of_getLsbD_eq
  intro k _
  rw [getLsbD_readField _ h, getLsbD_readField _ (by omega), getLsbD_writeField _ _ h, Nat.add_sub_cancel_left,
    zero_add]
  by_cases hk : k < len
  · rw [if_pos (by omega)]
  · simp [hk]

/-- Writing back what was read changes nothing (R84 a). -/
theorem writeField_readField : writeField a start len (readField a start len) = a := by
  apply BitVec.eq_of_getLsbD_eq
  intro k _
  rw [getLsbD_writeField _ _ h, getLsbD_readField _ h]
  split
  · next hk => simp [show k - start < len by omega, Nat.add_sub_of_le hk.1]
  · rfl

/-- A second equal write changes nothing (R84 b). -/
theorem writeField_writeField_same :
    writeField (writeField a start len b) start len b = writeField a start len b := by
  apply BitVec.eq_of_getLsbD_eq
  intro k _
  rw [getLsbD_writeField _ _ h, getLsbD_writeField _ _ h]
  split <;> rfl

/-- Outside the field the register is as it was (R83). -/
theorem writeField_and_inverseMask :
    writeField a start len b &&& inverseMask n len start = a &&& inverseMask n len start := by
  apply BitVec.eq_of_getLsbD_eq
  intro k _
  rw [BitVec.getLsbD_and, BitVec.getLsbD_and, getLsbD_writeField _ _ h, getLsbD_inverseMask h]
  by_cases hk : start ≤ k ∧ k < start + len
  · simp [hk]
  · rw [if_neg hk]

end Field

/-- The whole register reads whole (R84 d). -/
theorem readField_full {n : Nat} (a : RegVal n) : readField a 0 n = a := by
  simp [readField, fwdMask]

/-- The whole register is written whole (R84 d). -/
theorem writeField_full {n : Nat} (a b : RegVal n) : writeField a 0 n b = b := by
  simp [writeField, inverseMask, fwdMask]

/-! ## Results that are fed in again -/

/-- A port keeps a result of its own width. -/
@[simp] theorem setWidth_zext64 (w : Width) (r : RegVal w.bits) : (zext64 r).setWidth w.bits = r :=
  operandA_zext64 w r { cmd := 0, a := zext64 r, b := 0 } rfl

theorem zext64_setWidth (n : Nat) (v : PortWord) : zext64 (v.setWidth n) = BitVec.ofNat 64 (v.toNat % 2 ^ n) := by
  rw [zext64_eq_ofNat, BitVec.toNat_setWidth]

/-- A mask of N bits meets a port word in its low N bits only. -/
theorem and_zext64 {n : Nat} (v : PortWord) (m : RegVal n) : v &&& zext64 m = zext64 (v.setWidth n &&& m) := by
  apply BitVec.eq_of_getLsbD_eq
  intro k hk
  by_cases hkn : k < n
  · simp [zext64, hk, hkn]
  · simp [zext64, hkn, BitVec.getLsbD_of_ge m k (by omega)]

section Delivers

variable {w : Width} {start len : Int} (h : ValidField w.bits start len)

include h

/-- Reading from a result of the same width (R81). -/
theorem deliversY_rdf_zext64 (r : RegVal w.bits) (b : PortWord) :
    DeliversY (.rdf w start len) (zext64 r) b (zext64 (readField r start.toNat len.toNat)) := by
  simpa using deliversY_rdf h (zext64 r) b

/-- R83 with the truncation explicit: the field holds the low `len` bits of what was written. -/
theorem deliversY_rdf_writeField (a : RegVal w.bits) (x b : PortWord) :
    DeliversY (.rdf w start len) (zext64 (writeField a start.toNat len.toNat (x.setWidth w.bits))) b
      (BitVec.ofNat 64 (x.toNat % 2 ^ len.toNat)) := by
  have hfit := toNat_add_toNat_le_of_valid h
  have hread := deliversY_rdf_zext64 h (writeField a start.toNat len.toNat (x.setWidth w.bits)) b
  rwa [readField_writeField hfit, zext64_eq_ofNat (readField _ _ _), toNat_readField _ (by omega),
    BitVec.toNat_setWidth, pow_zero, Nat.div_one, Nat.mod_mod_of_dvd _ (pow_dvd_pow 2 (by omega))] at hread

end Delivers

end Sys2Proof.Machine

namespace Sys2Proof.Proofs

open Sys2Proof.Machine Sys2Proof.Safety

/-- Settles O26: a checked operation whose value is the field as an integer. -/
theorem rdfDeliversTheField : Obligations.RdfDeliversTheField := by
  unfold Obligations.RdfDeliversTheField
  simp only [← s8_eq_toInt]
  have hdelivers (w : Width) (start len : Int) (s : State) (h : ValidField w.bits start len) :
      exec (.rdf w start len) s = .next { s with outputs := okY s.inputs (BitVec.ofNat 64 (
        s.inputs.a.toNat % 2 ^ w.bits / 2 ^ start.toNat % 2 ^ len.toNat)) } := by
    rw [deliversY_rdf h _ _ s rfl rfl, zext64_eq_ofNat, toNat_readField _ (toNat_add_toNat_le_of_valid h),
      BitVec.toNat_setWidth]
  refine ⟨encodedAs_of_decodeOp fun _ _ _ => rfl, hdelivers, fun w start len s h => ?_, fun s hcmd ha => ?_,
    fun s hcmd ha => ?_⟩
  · exact IsFieldOp.failsWith (.inr (.inr (.inl rfl))) h s
  · rw [step_of_cmd_eq hcmd (i := .rdf .n8 0 8) rfl, hdelivers .n8 0 8 s (by decide), ha]
    rfl
  · rw [step_of_cmd_eq hcmd (i := .rdf .n16 4 5) rfl, hdelivers .n16 4 5 s (by decide), ha]
    rfl

/-- Settles O27: a checked operation whose value has the new bits in the field and the old ones elsewhere below N. -/
theorem wrfReplacesTheField : Obligations.WrfReplacesTheField := by
  unfold Obligations.WrfReplacesTheField
  simp only [← s8_eq_toInt]
  refine ⟨encodedAs_of_decodeOp fun _ _ _ => rfl,
    fun w start len s h => ⟨_, deliversY_wrf h _ _ s rfl rfl, fun k => ?_⟩, fun w start len s h => ?_,
    fun s hcmd ha => ?_⟩
  · have hfit := toNat_add_toNat_le_of_valid h
    have hfield : (start.toNat ≤ k ∧ k < start.toNat + len.toNat) ↔ start ≤ k ∧ (k : Int) < start + len := by
      obtain ⟨hstart, hlen, -⟩ := h
      omega
    rw [getLsbD_zext64 (bits_le w), getLsbD_writeField _ _ hfit, if_congr hfield rfl rfl, BitVec.getLsbD_setWidth,
      BitVec.getLsbD_setWidth]
    by_cases hk : start ≤ k ∧ (k : Int) < start + len
    · rw [if_pos hk, if_pos hk, decide_eq_true (by omega), Bool.true_and]
    · rw [if_neg hk, if_neg hk]
  · exact IsFieldOp.failsWith (.inr (.inr (.inr rfl))) h s
  · rw [step_of_cmd_eq hcmd (i := .wrf .n16 4 5) rfl]
    exact ⟨fun hb => deliversY_wrf (by decide) _ _ s ha hb, fun hb => deliversY_wrf (by decide) _ _ s ha hb⟩

/-- Settles O28: a value below 2^len survives the truncation, and the inverse mask hides the field. -/
theorem fieldRoundTrip : Obligations.FieldRoundTrip := by
  unfold Obligations.FieldRoundTrip
  intro w start len v x h
  refine ⟨_, _, deliversY_wrf h v x, fun hx b => ?_, deliversY_imask h, ?_⟩
  · simpa [Nat.mod_eq_of_lt hx] using deliversY_rdf_writeField h (v.setWidth w.bits) x b
  · rw [and_zext64, and_zext64, setWidth_zext64, writeField_and_inverseMask (toNat_add_toNat_le_of_valid h)]

/-- Settles O29: each law is one of `readField` and `writeField`, of a result that the port hands back unchanged. -/
theorem fieldLaws : Obligations.FieldLaws := by
  unfold Obligations.FieldLaws
  intro w start len v x h
  have hfit := toNat_add_toNat_le_of_valid h
  have hfull : ValidField w.bits 0 w.bits := ⟨le_rfl, by omega, by omega⟩
  refine ⟨_, _, deliversY_rdf h v, ?_, ?_, deliversY_wrf h v x, ?_, deliversY_rdf_writeField h _ x, fun b => ?_, ?_⟩
  · rw [toNat_zext64 (bits_le w), toNat_readField _ hfit]
    exact Nat.mod_lt _ (Nat.two_pow_pos _)
  · have hwrite := deliversY_wrf h v (zext64 (readField (v.setWidth w.bits) start.toNat len.toNat))
    rwa [setWidth_zext64, writeField_readField hfit, zext64_setWidth] at hwrite
  · have hwrite := deliversY_wrf h
      (zext64 (writeField (v.setWidth w.bits) start.toNat len.toNat (x.setWidth w.bits))) x
    rwa [setWidth_zext64, writeField_writeField_same hfit] at hwrite
  · simpa [readField_full, zext64_setWidth] using deliversY_rdf hfull v b
  · simpa [writeField_full, zext64_setWidth] using deliversY_wrf hfull v x

end Sys2Proof.Proofs
end

section
/-! The single-bit operations (42_single_bit_ops.md R90 to R96): the four answer one check, each is a field operation of
length 1 on values of N bits, and what they do to each other. -/

namespace Sys2Proof.Machine

open Sys2Proof.Safety

/-! ## Operations on a bit: one check, then a value of port `A` -/

/-- The four operations that take a Bit Index (R90). -/
abbrev IsBitOp (w : Width) (idx : Int) (i : Instr) : Prop :=
  i = .setb w idx ∨ i = .clrb w idx ∨ i = .tglb w idx ∨ i = .tstb w idx

/-- Each of the four answers an invalid index with error 2 (R90, R132). -/
theorem IsBitOp.failsWith {w : Width} {idx : Int} {i : Instr} (hi : IsBitOp w idx i) (h : ¬ ValidIndex w.bits idx) :
    FailsWith i 2 := by
  intro s
  obtain rfl | rfl | rfl | rfl := hi <;> exact checked_index_of_invalid h s _

section Delivers

variable {w : Width} {idx : Int} (h : ValidIndex w.bits idx) (a b : PortWord)

include h

theorem deliversY_setb : DeliversY (.setb w idx) a b (zext64 (setBit (a.setWidth w.bits) idx.toNat)) := by
  rintro s rfl rfl
  exact checked_index_of_valid h s _

theorem deliversY_clrb : DeliversY (.clrb w idx) a b (zext64 (clearBit (a.setWidth w.bits) idx.toNat)) := by
  rintro s rfl rfl
  exact checked_index_of_valid h s _

theorem deliversY_tglb : DeliversY (.tglb w idx) a b (zext64 (toggleBit (a.setWidth w.bits) idx.toNat)) := by
  rintro s rfl rfl
  exact checked_index_of_valid h s _

theorem deliversT_tstb : DeliversT (.tstb w idx) a b (isBitSet (a.setWidth w.bits) idx.toNat) := by
  rintro s rfl rfl
  exact checked_index_of_valid h s _

end Delivers

/-- A valid index in natural numbers. -/
theorem toNat_lt_of_validIndex {n : Nat} {idx : Int} (h : ValidIndex n idx) : idx.toNat < n := by
  obtain ⟨hlow, hhigh⟩ := h
  omega

/-- What is said of the bits below N of a lane may be read off the port (R27). -/
theorem lt_and_getLsbD_setWidth (f : Bool → Bool) (n : Nat) (a : PortWord) (k : Nat) :
    (decide (k < n) && f ((a.setWidth n).getLsbD k)) = (decide (k < n) && f (a.getLsbD k)) := by
  by_cases hk : k < n
  · rw [BitVec.getLsbD_setWidth, decide_eq_true hk, Bool.true_and (a.getLsbD k)]
  · rw [decide_eq_false hk, Bool.false_and, Bool.false_and]

/-! ## A bit is a field of length 1 (R95) -/

theorem validField_one_iff {n : Nat} {idx : Int} : ValidField n idx 1 ↔ ValidIndex n idx := by
  unfold ValidField ValidIndex
  omega

theorem fieldCode_one (idx : Int) : fieldCode idx 1 = if idx < 0 then 3 else 5 := rfl

section BitAsField

variable {n i : Nat} (hi : i < n) (a : RegVal n)

include hi

theorem getLsbD_writeField_one (b : RegVal n) (k : Nat) :
    (writeField a i 1 b).getLsbD k = if k = i then b.getLsbD 0 else a.getLsbD k := by
  rw [getLsbD_writeField a b hi]
  by_cases hk : k = i
  · simp [hk]
  · rw [if_neg (by omega), if_neg hk]

/-- A value whose bit `i` is the low bit of `b` and whose other bits are those of `a` is `a` with `b` written there. -/
theorem eq_writeField_one {b r : RegVal n} (hr : ∀ k < n, r.getLsbD k = if k = i then b.getLsbD 0 else a.getLsbD k) :
    r = writeField a i 1 b := by
  apply BitVec.eq_of_getLsbD_eq
  intro k hk
  rw [hr k hk, getLsbD_writeField_one hi]

theorem setBit_eq_writeField {b : RegVal n} (hb : b.getLsbD 0 = true) : setBit a i = writeField a i 1 b := by
  refine eq_writeField_one hi a fun k hk => ?_
  rw [getLsbD_setBit, decide_eq_true hk, Bool.true_and, hb]
  by_cases hki : k = i <;> simp [hki]

theorem clearBit_eq_writeField {b : RegVal n} (hb : b.getLsbD 0 = false) : clearBit a i = writeField a i 1 b := by
  refine eq_writeField_one hi a fun k hk => ?_
  rw [getLsbD_clearBit, decide_eq_true hk, Bool.true_and, hb]
  by_cases hki : k = i <;> simp [hki]

theorem toggleBit_eq_writeField {b : RegVal n} (hb : b.getLsbD 0 = !isBitSet a i) :
    toggleBit a i = writeField a i 1 b := by
  refine eq_writeField_one hi a fun k hk => ?_
  rw [getLsbD_toggleBit, decide_eq_true hk, Bool.true_and, hb, isBitSet_eq]
  by_cases hki : k = i <;> simp [hki]

end BitAsField

/-- The bit that is tested, read as a field of length 1. -/
theorem zext64_readField_one {w : Width} {i : Nat} (hi : i < w.bits) (a : RegVal w.bits) :
    zext64 (readField a i 1) = if isBitSet a i then 1 else 0 := by
  have hbit : a.toNat / 2 ^ i % 2 = (isBitSet a i).toNat := by
    rw [isBitSet_eq, ← BitVec.testBit_toNat, Nat.toNat_testBit]
  rw [zext64_eq_ofNat, toNat_readField a hi, pow_one, hbit]
  cases isBitSet a i <;> rfl

/-- `1 - RDF` of one bit is its complement (R95). -/
theorem getLsbD_zero_one_sub_readField {w : Width} {i : Nat} (hi : i < w.bits) (a : RegVal w.bits) :
    (1 - zext64 (readField a i 1)).getLsbD 0 = !isBitSet a i := by
  rw [zext64_readField_one hi]
  cases isBitSet a i <;> rfl

/-- Every lane has the port's lowest bit. -/
theorem getLsbD_zero_setWidth (w : Width) (x : PortWord) : (x.setWidth w.bits).getLsbD 0 = x.getLsbD 0 := by
  rw [BitVec.getLsbD_setWidth, decide_eq_true (bits_pos w), Bool.true_and]

/-- Writing one bit changes no other bit of the lane (R96). -/
theorem getLsbD_zext64_writeField_one {w : Width} {i k : Nat} (hi : i < w.bits) (hk : k < w.bits) (hne : k ≠ i)
    (a : PortWord) (b : RegVal w.bits) :
    (zext64 (writeField (a.setWidth w.bits) i 1 b)).getLsbD k = a.getLsbD k := by
  rw [getLsbD_zext64 (bits_le w), getLsbD_writeField_one hi, if_neg hne, BitVec.getLsbD_setWidth, decide_eq_true hk,
    Bool.true_and]

/-! ## The operations on each other's results (R96) -/

section Laws

variable {n : Nat} (a : RegVal n) (i : Nat)

@[simp] theorem isBitSet_setBit (hi : i < n) : isBitSet (setBit a i) i = true := by
  rw [isBitSet_eq, getLsbD_setBit, decide_eq_true hi, decide_eq_true rfl]
  rfl

@[simp] theorem isBitSet_clearBit : isBitSet (clearBit a i) i = false := by
  simp [isBitSet_eq, getLsbD_clearBit]

@[simp] theorem setBit_setBit : setBit (setBit a i) i = setBit a i := by
  rw [setBit, setBit, BitVec.or_assoc, BitVec.or_self]

@[simp] theorem clearBit_clearBit : clearBit (clearBit a i) i = clearBit a i := by
  rw [clearBit, clearBit, BitVec.and_assoc, BitVec.and_self]

@[simp] theorem toggleBit_toggleBit : toggleBit (toggleBit a i) i = a := by
  rw [toggleBit, toggleBit, BitVec.xor_assoc, BitVec.xor_self, BitVec.xor_zero]

end Laws

/-! ## What the two transactions of R90 share -/

/-- Above opcode 3 no operation reads `LEN`, so the low 16 bits of the word hold all that is read (R52, R56). -/
theorem sameReadFields_of_low_bits {c c' : CmdWord} (hop : 3 < (c.extractLsb' 0 4).toNat)
    (h : c.extractLsb' 0 16 = c'.extractLsb' 0 16) : SameReadFields c c' := by
  have hlow : c.toNat % 2 ^ 16 = c'.toNat % 2 ^ 16 := by rw [← toNat_extractLsb'_zero, h, toNat_extractLsb'_zero]
  refine ⟨BitVec.eq_of_toNat_eq ?_, fun _ => BitVec.eq_of_toNat_eq ?_, fun hle => absurd hle (by omega)⟩
  · rw [toNat_extractLsb'_zero, toNat_extractLsb'_zero]
    omega
  · rw [← cmdPos, ← cmdPos, toNat_cmdPos, toNat_cmdPos]
    omega

end Sys2Proof.Machine

namespace Sys2Proof.Proofs

open Sys2Proof.Machine Sys2Proof.Safety

/-- Settles O30: a checked operation whose value is the lane of `A` with one more bit set. -/
theorem setbSetsOneBit : Obligations.SetbSetsOneBit := by
  unfold Obligations.SetbSetsOneBit
  simp only [← s8_eq_toInt]
  refine ⟨encodedAs_of_decodeOp fun _ _ _ => rfl,
    fun w idx s h => ⟨_, deliversY_setb h _ _ s rfl rfl, fun k => ?_⟩,
    fun w idx s h => IsBitOp.failsWith (.inl rfl) h s, fun s hcmd ha => ?_⟩
  · rw [getLsbD_zext64 (bits_le w), getLsbD_setBit, lt_and_getLsbD_setWidth (decide (k = idx.toNat) || ·)]
  · rw [step_of_cmd_eq hcmd (i := .setb .n8 1) rfl]
    exact deliversY_setb (by decide) _ _ s ha rfl

/-- Settles O31: a checked operation whose value is the lane of `A` with one bit less. -/
theorem clrbClearsOneBit : Obligations.ClrbClearsOneBit := by
  unfold Obligations.ClrbClearsOneBit
  simp only [← s8_eq_toInt]
  refine ⟨encodedAs_of_decodeOp fun _ _ _ => rfl,
    fun w idx s h => ⟨_, deliversY_clrb h _ _ s rfl rfl, fun k => ?_⟩,
    fun w idx s h => IsBitOp.failsWith (.inr (.inl rfl)) h s, fun s hcmd ha => ?_⟩
  · rw [getLsbD_zext64 (bits_le w), getLsbD_clearBit, lt_and_getLsbD_setWidth (decide (k ≠ idx.toNat) && ·)]
  · rw [step_of_cmd_eq hcmd (i := .clrb .n8 0) rfl]
    exact deliversY_clrb (by decide) _ _ s ha rfl

/-- Settles O32: a checked operation whose value is the lane of `A` with one bit the other way. -/
theorem tglbTogglesOneBit : Obligations.TglbTogglesOneBit := by
  unfold Obligations.TglbTogglesOneBit
  simp only [← s8_eq_toInt]
  refine ⟨encodedAs_of_decodeOp fun _ _ _ => rfl,
    fun w idx s h => ⟨_, deliversY_tglb h _ _ s rfl rfl, fun k => ?_⟩,
    fun w idx s h => IsBitOp.failsWith (.inr (.inr (.inl rfl))) h s, fun s hcmd ha => ?_⟩
  · rw [getLsbD_zext64 (bits_le w), getLsbD_toggleBit, lt_and_getLsbD_setWidth (decide (k = idx.toNat) ^^ ·)]
  · rw [step_of_cmd_eq hcmd (i := .tglb .n8 7) rfl]
    exact deliversY_tglb (by decide) _ _ s ha rfl

/-- Settles O33: a checked operation whose value is one bit of the lane of `A`, as an integer. -/
theorem tstbTestsOneBit : Obligations.TstbTestsOneBit := by
  unfold Obligations.TstbTestsOneBit
  simp only [← s8_eq_toInt]
  refine ⟨encodedAs_of_decodeOp fun _ _ _ => rfl, fun w idx s h => ?_,
    fun w idx s h => IsBitOp.failsWith (.inr (.inr (.inr rfl))) h s, fun s ha => ⟨fun hcmd => ?_, fun hcmd => ?_⟩⟩
  · rw [deliversT_tstb h _ _ s rfl rfl, isBitSet_eq_bit, BitVec.toNat_setWidth]
    rfl
  · rw [step_of_cmd_eq hcmd (i := .tstb .n8 0) rfl]
    exact deliversT_tstb (by decide) _ _ s ha rfl
  · rw [step_of_cmd_eq hcmd (i := .tstb .n8 1) rfl]
    exact deliversT_tstb (by decide) _ _ s ha rfl

/-- Settles O34: the four share one check, and neither `LEN` nor `B` is among the inputs that opcodes 4 to 7 read. -/
theorem indicesAreCheckedNotReduced : Obligations.IndicesAreCheckedNotReduced := by
  unfold Obligations.IndicesAreCheckedNotReduced
  refine ⟨fun w idx i hi => ⟨fun hout => IsBitOp.failsWith hi (by omega), fun h s => ?_⟩, fun s s' hop hlow ha => ?_⟩
  · obtain ⟨t, hexec, herr⟩ := validOperandsSucceed.2 w idx i s hi
    exact ⟨t, hexec, herr.mpr h⟩
  · have hopcode : 3 < (s.inputs.cmd.extractLsb' 0 4).toNat := by
      rw [toNat_extractLsb'_zero] at hop ⊢
      omega
    have hsame : SameReadInputs s.inputs s'.inputs :=
      ⟨sameReadFields_of_low_bits hopcode hlow, fun _ => ha, fun h3 => absurd h3 (by omega)⟩
    obtain ⟨t, t', ht, ht', hout, -, -⟩ := unreadInputsAreIgnored s s' hsame
    exact ⟨t, t', ht, ht', (congrArg Outputs.err hout).symm, (congrArg Outputs.y hout).symm,
      (congrArg Outputs.t hout).symm⟩

/-- Settles O35: setting, clearing and toggling a bit each write a field of length 1, which changes no other bit. -/
theorem singleBitIsFieldOfLengthOne : Obligations.SingleBitIsFieldOfLengthOne := by
  unfold Obligations.SingleBitIsFieldOfLengthOne
  refine fun w idx a b => ⟨fun h => ?_, fun h => ?_⟩
  · have hi := toNat_lt_of_validIndex h
    have hfield := validField_one_iff.mpr h
    have hset := deliversY_setb h a b
    have hclear := deliversY_clrb h a b
    have htoggle := deliversY_tglb h a b
    rw [setBit_eq_writeField hi _ (getLsbD_zero_setWidth w 1)] at hset
    rw [clearBit_eq_writeField hi _ (getLsbD_zero_setWidth w 0)] at hclear
    have hflip := (getLsbD_zero_setWidth w _).trans (getLsbD_zero_one_sub_readField hi (a.setWidth w.bits))
    rw [toggleBit_eq_writeField hi _ hflip] at htoggle
    have hothers (x : RegVal w.bits) (k : Nat) (hk : k < w.bits) (hne : (k : Int) ≠ idx) :=
      getLsbD_zext64_writeField_one hi hk (by omega) a x
    exact ⟨_, _, _, _, _, hset, deliversY_wrf hfield a 1, hclear, deliversY_wrf hfield a 0, deliversY_rdf hfield a b,
      htoggle, deliversY_wrf hfield a _, deliversT_tstb h a b, zext64_readField_one hi _,
      fun k hk hne => ⟨hothers _ k hk hne, hothers _ k hk hne, hothers _ k hk hne⟩⟩
  · have hfield := mt validField_one_iff.mp h
    rw [← fieldCode_one]
    exact ⟨IsBitOp.failsWith (.inl rfl) h, IsBitOp.failsWith (.inr (.inl rfl)) h,
      IsBitOp.failsWith (.inr (.inr (.inl rfl))) h, IsBitOp.failsWith (.inr (.inr (.inr rfl))) h,
      IsFieldOp.failsWith (.inr (.inr (.inr rfl))) hfield, IsFieldOp.failsWith (.inr (.inr (.inl rfl))) hfield⟩

/-- Settles O36: each law is one of the value functions, of a result that the port hands back unchanged. -/
theorem singleBitLaws : Obligations.SingleBitLaws := by
  unfold Obligations.SingleBitLaws
  intro w idx v b h
  refine ⟨_, _, _, deliversY_setb h v b, ?_, ?_, deliversY_clrb h v b, ?_, ?_, deliversY_tglb h v b, ?_⟩
  · simpa [toNat_lt_of_validIndex h] using deliversT_tstb h (zext64 (setBit (v.setWidth w.bits) idx.toNat)) b
  · simpa using deliversY_setb h (zext64 (setBit (v.setWidth w.bits) idx.toNat)) b
  · simpa using deliversT_tstb h (zext64 (clearBit (v.setWidth w.bits) idx.toNat)) b
  · simpa using deliversY_clrb h (zext64 (clearBit (v.setWidth w.bits) idx.toNat)) b
  · simpa [zext64_setWidth] using deliversY_tglb h (zext64 (toggleBit (v.setWidth w.bits) idx.toNat)) b

end Sys2Proof.Proofs
end

section
/-! The barrel_rotator (43_barrel_rotator.md R100 to R103): rotations of values of N bits, each the inverse of the other,
and the two operations that deliver them. -/

namespace Sys2Proof.Machine

open Sys2Proof.Safety

/-! ## Rotations of a value of N bits -/

/-- A place moved down by `s` and then up by `s`, modulo N, is where it was. -/
theorem add_sub_mod_add_mod_of_lt {n k : Nat} (hk : k < n) (x : Nat) : ((k + (n - x % n)) % n + x % n) % n = k := by
  have hx : x % n < n := Nat.mod_lt _ (by omega)
  rw [Nat.mod_add_mod, show k + (n - x % n) + x % n = k + n by omega, Nat.add_mod_right, Nat.mod_eq_of_lt hk]

/-- A predicate of period `m` holds equally often in every interval of length `m`. -/
theorem count_add_of_periodic {p : Nat → Prop} [DecidablePred p] {m : Nat} (h : ∀ k, p (m + k) ↔ p k) (i : Nat) :
    Nat.count (fun k => p (i + k)) m = Nat.count p m := by
  have hsplit : Nat.count p i + Nat.count (fun k => p (i + k)) m = Nat.count p m + Nat.count p i := by
    rw [← Nat.count_add, Nat.add_comm i m, Nat.count_add]
    simp only [h]
  omega

section Rotations

variable {n : Nat} (a : RegVal n)

/-- Only the amount modulo N matters (R100). -/
theorem rotateLeft_congr {x z : Nat} (h : x % n = z % n) : rotateLeft a x = rotateLeft a z := by
  rw [rotateLeft, rotateLeft, rotationAmount, rotationAmount, h]

theorem rotateRight_congr {x z : Nat} (h : x % n = z % n) : rotateRight a x = rotateRight a z := by
  rw [rotateRight, rotateRight, rotationAmount, rotationAmount, h]

/-- The full-width rotation is the identity (R103). -/
theorem rotateLeft_width : rotateLeft a n = a := by
  rw [rotateLeft, rotationAmount]
  exact if_pos (Nat.mod_self n)

theorem rotateRight_rotateLeft (x : Nat) : rotateRight (rotateLeft a x) x = a := by
  apply BitVec.eq_of_getLsbD_eq
  intro k hk
  rw [getLsbD_rotateRight_of_lt _ _ _ hk, getLsbD_rotateLeft_add _ _ _ hk]

variable {a}

/-- A value that has the bits of `a` at their rotated places is `a` rotated (R101). -/
theorem eq_rotateLeft {r : RegVal n} {x : Nat} (h : ∀ k < n, r.getLsbD ((k + x % n) % n) = a.getLsbD k) :
    r = rotateLeft a x := by
  apply BitVec.eq_of_getLsbD_eq
  intro j hj
  have hk : (j + (n - x % n)) % n < n := Nat.mod_lt _ (by omega)
  rw [← add_sub_mod_add_mod_of_lt hj x, h _ hk, getLsbD_rotateLeft_add _ _ _ hk]

variable (a)

theorem rotateLeft_rotateRight (x : Nat) : rotateLeft (rotateRight a x) x = a :=
  (eq_rotateLeft fun k hk => (getLsbD_rotateRight_of_lt a x k hk).symm).symm

theorem rotateLeft_rotateLeft (x z : Nat) : rotateLeft (rotateLeft a x) z = rotateLeft a (x + z) := by
  refine eq_rotateLeft fun k hk => ?_
  have hplace : (k + (x + z) % n) % n = ((k + x % n) % n + z % n) % n := by
    simp [Nat.add_assoc]
  rw [hplace, getLsbD_rotateLeft_add _ _ _ (Nat.mod_lt _ (by omega)), getLsbD_rotateLeft_add _ _ _ hk]

/-- Moving down by `s` is moving up by `N - s` (R102). -/
theorem rotateRight_eq_rotateLeft (x : Nat) : rotateRight a x = rotateLeft a (n - x % n) := by
  refine eq_rotateLeft fun k hk => ?_
  rw [Nat.add_mod_mod, getLsbD_rotateRight_of_lt _ _ _ (Nat.mod_lt _ (by omega)), add_sub_mod_add_mod_of_lt hk]

theorem rotateLeft_bijective (x : Nat) : Function.Bijective fun a : RegVal n => rotateLeft a x :=
  Function.bijective_iff_has_inverse.mpr
    ⟨(rotateRight · x), (rotateRight_rotateLeft · x), (rotateLeft_rotateRight · x)⟩

theorem rotateRight_bijective (x : Nat) : Function.Bijective fun a : RegVal n => rotateRight a x :=
  Function.bijective_iff_has_inverse.mpr
    ⟨(rotateLeft · x), (rotateLeft_rotateRight · x), (rotateRight_rotateLeft · x)⟩

theorem popcnt_eq_count : popcnt a = Nat.count (fun k => a.getLsbD (k % n) = true) n :=
  List.countP_congr fun k hk => by
    simp [Nat.mod_eq_of_lt (List.mem_range.mp hk)]

/-- A rotation preserves the population count (R103). -/
theorem popcnt_rotateRight (x : Nat) : popcnt (rotateRight a x) = popcnt a := by
  have hperiod (k : Nat) : a.getLsbD ((n + k) % n) = true ↔ a.getLsbD (k % n) = true := by
    rw [Nat.add_mod_left]
  rw [popcnt_eq_count a, ← count_add_of_periodic hperiod (x % n)]
  exact List.countP_congr fun k hk => by
    rw [getLsbD_rotateRight_of_lt _ _ _ (List.mem_range.mp hk), Nat.add_comm, decide_eq_true_eq]

theorem popcnt_rotateLeft (x : Nat) : popcnt (rotateLeft a x) = popcnt a := by
  rw [← popcnt_rotateRight (rotateLeft a x) x, rotateRight_rotateLeft]

end Rotations

/-! ## The two operations -/

section Delivers

variable (w : Width) (x : Nat) (b : PortWord)

theorem deliversY_rol (a : PortWord) : DeliversY (.rol w x) a b (zext64 (rotateLeft (a.setWidth w.bits) x)) := by
  rintro s rfl rfl
  rfl

theorem deliversY_ror (a : PortWord) : DeliversY (.ror w x) a b (zext64 (rotateRight (a.setWidth w.bits) x)) := by
  rintro s rfl rfl
  rfl

variable {w}

/-- Rotating a result of the same width. -/
theorem deliversY_rol_zext64 (r : RegVal w.bits) : DeliversY (.rol w x) (zext64 r) b (zext64 (rotateLeft r x)) := by
  simpa using deliversY_rol w x b (zext64 r)

theorem deliversY_ror_zext64 (r : RegVal w.bits) : DeliversY (.ror w x) (zext64 r) b (zext64 (rotateRight r x)) := by
  simpa using deliversY_ror w x b (zext64 r)

end Delivers

theorem exec_rol_congr {w : Width} {x z : Nat} (h : x % w.bits = z % w.bits) (s : State) :
    exec (.rol w x) s = exec (.rol w z) s := by
  rw [deliversY_rol w x _ _ s rfl rfl, deliversY_rol w z _ _ s rfl rfl, rotateLeft_congr _ h]

theorem exec_ror_congr {w : Width} {x z : Nat} (h : x % w.bits = z % w.bits) (s : State) :
    exec (.ror w x) s = exec (.ror w z) s := by
  rw [deliversY_ror w x _ _ s rfl rfl, deliversY_ror w z _ _ s rfl rfl, rotateRight_congr _ h]

/-- Every width divides 2^8, so the low byte of an amount has its remainder (R100). -/
theorem toNat_ofInt_mod_bits (w : Width) (k : Int) :
    (BitVec.ofInt 8 k).toNat % w.bits = (k % (w.bits : Int)).toNat % w.bits := by
  rw [BitVec.toNat_ofInt]
  cases w <;> simp only [Width.bits] <;> omega

/-- A legal word of opcode 8 or 9 succeeds (R100). -/
theorem step_of_rotation {s : State} (hrsv : s.inputs.cmd.extractLsb' 6 2 = 0#2)
    (hop : (s.inputs.cmd.extractLsb' 0 4).toNat / 2 = 4) :
    ∃ y, step s = .next { s with outputs := okY s.inputs y } := by
  have hcases : s.inputs.cmd.extractLsb' 0 4 = 8 ∨ s.inputs.cmd.extractLsb' 0 4 = 9 := by
    generalize s.inputs.cmd.extractLsb' 0 4 = op at hop
    revert op
    decide
  obtain hrol | hror := hcases
  · rw [step_of_decode_ok (encodedAs_of_decodeOp (fun _ _ _ => rfl) _ hrsv hrol)]
    exact ⟨_, deliversY_rol _ _ _ _ s rfl rfl⟩
  · rw [step_of_decode_ok (encodedAs_of_decodeOp (fun _ _ _ => rfl) _ hrsv hror)]
    exact ⟨_, deliversY_ror _ _ _ _ s rfl rfl⟩

/-! ## Port words that hold a value of N bits -/

theorem exists_eq_zext64 {w : Width} {v : PortWord} (h : v.toNat < 2 ^ w.bits) : ∃ r : RegVal w.bits, v = zext64 r :=
  ⟨v.setWidth w.bits, by rw [zext64_setWidth, Nat.mod_eq_of_lt h, BitVec.ofNat_toNat, BitVec.setWidth_eq]⟩

theorem zext64_injective (w : Width) : Function.Injective fun r : RegVal w.bits => zext64 r :=
  Function.LeftInverse.injective (setWidth_zext64 w)

/-- What an operation delivers is determined by the data ports. -/
theorem deliversY_unique {i : Instr} {a b y y' : PortWord} (h : DeliversY i a b y)
    (h' : DeliversY i a b y') : y = y' := by
  have hexec := h (present ⟨0, a, b⟩ State.reset) rfl rfl
  rw [h' (present ⟨0, a, b⟩ State.reset) rfl rfl] at hexec
  injection hexec with hstate
  exact congrArg (fun s => s.outputs.y) hstate.symm

/-- An operation that computes a bijection on N-bit values delivers each of them from exactly one. -/
theorem existsUnique_deliversY {w : Width} {i : Instr} {f : RegVal w.bits → RegVal w.bits} {b : PortWord}
    (hf : Function.Bijective f) (h : ∀ u, DeliversY i (zext64 u) b (zext64 (f u))) (r : RegVal w.bits) :
    ∃! u : PortWord, u.toNat < 2 ^ w.bits ∧ DeliversY i u b (zext64 r) := by
  obtain ⟨q, rfl⟩ := hf.surjective r
  refine ⟨zext64 q, ⟨zext64_lt w q, h q⟩, ?_⟩
  rintro u ⟨hu, hdelivers⟩
  obtain ⟨q', rfl⟩ := exists_eq_zext64 hu
  rw [hf.injective (zext64_injective w (deliversY_unique (h q') hdelivers))]

end Sys2Proof.Machine

namespace Sys2Proof.Proofs

open Sys2Proof.Machine Sys2Proof.Safety

/-- Settles O37: every width divides 2^8, and neither `LEN` nor `B` is among the inputs that opcodes 8 and 9 read. -/
theorem rotationAmountIsReduced : Obligations.RotationAmountIsReduced := by
  unfold Obligations.RotationAmountIsReduced
  refine ⟨fun w shift s => ⟨?_, ?_, ⟨_, rfl, rfl⟩, ⟨_, rfl, rfl⟩⟩, fun w k s => ⟨?_, ?_⟩, fun pos k _ => ?_,
    fun s s' hrsv hop hlow ha => ?_⟩
  · exact exec_rol_congr (Nat.mod_mod shift w.bits).symm s
  · exact exec_ror_congr (Nat.mod_mod shift w.bits).symm s
  · exact exec_rol_congr (toNat_ofInt_mod_bits w k) s
  · exact exec_ror_congr (toNat_ofInt_mod_bits w k) s
  · rw [toNat_extractLsb'_zero, Nat.shiftLeft_eq, pow_add]
    rfl
  · have hsame : SameReadInputs s.inputs s'.inputs :=
      ⟨sameReadFields_of_low_bits (by omega) hlow, fun _ => ha, fun h3 => absurd h3 (by omega)⟩
    obtain ⟨t, t', ht, ht', -, hout, -⟩ := unreadInputsAreIgnored s s' hsame
    obtain ⟨y, hstep⟩ := step_of_rotation hrsv hop
    obtain rfl : t = { s with outputs := okY s.inputs y } := by
      rw [ht] at hstep
      injection hstep
    exact ⟨_, t', ht, ht', (hout rfl).symm⟩

/-- Settles O38: the value is the lane of `A` rotated, zero-extended. -/
theorem rolRotatesLeft : Obligations.RolRotatesLeft := by
  unfold Obligations.RolRotatesLeft
  refine ⟨encodedAs_of_decodeOp fun _ _ _ => rfl,
    fun w shift s => ⟨_, deliversY_rol w shift _ _ s rfl rfl, fun k hk => ?_, fun k hk => ?_⟩,
    fun s hcmd ha => ?_, fun s hcmd ha => ?_⟩
  · rw [getLsbD_zext64 (bits_le w), getLsbD_rotateLeft_add _ _ _ hk, BitVec.getLsbD_setWidth, decide_eq_true hk,
      Bool.true_and]
  · rw [getLsbD_zext64 (bits_le w), BitVec.getLsbD_of_ge _ k hk]
  · rw [step_of_cmd_eq hcmd (i := .rol .n8 4) rfl]
    exact deliversY_rol _ _ _ _ s ha rfl
  · rw [step_of_cmd_eq hcmd (i := .rol .n64 4) rfl]
    exact deliversY_rol _ _ _ _ s ha rfl

/-- Settles O39: the value is the lane of `A` rotated, zero-extended. -/
theorem rorRotatesRight : Obligations.RorRotatesRight := by
  unfold Obligations.RorRotatesRight
  refine ⟨encodedAs_of_decodeOp fun _ _ _ => rfl,
    fun w shift s => ⟨_, deliversY_ror w shift _ _ s rfl rfl, fun k hk => ?_, fun k hk => ?_⟩, fun s hcmd => ?_⟩
  · rw [getLsbD_zext64 (bits_le w), getLsbD_rotateRight_of_lt _ _ _ hk, BitVec.getLsbD_setWidth,
      decide_eq_true (Nat.mod_lt _ (bits_pos w)), Bool.true_and]
  · rw [getLsbD_zext64 (bits_le w), BitVec.getLsbD_of_ge _ k hk]
  · rw [step_of_cmd_eq hcmd (i := .ror .n64 4) rfl]
    exact ⟨fun ha => deliversY_ror _ _ _ _ s ha rfl, fun ha => deliversY_ror _ _ _ _ s ha rfl⟩

/-- Settles O40: each law is one of the rotations, of a result that the port hands back unchanged. -/
theorem rotationLaws : Obligations.RotationLaws := by
  unfold Obligations.RotationLaws
  intro w v b x hv
  obtain ⟨r, rfl⟩ := exists_eq_zext64 hv
  refine ⟨_, _, _, deliversY_rol_zext64 x b r, ?_, deliversY_ror_zext64 x b r, ?_,
    deliversS_popc_zext64 rfl b, deliversS_popc_zext64 ?_ b, deliversS_popc_zext64 ?_ b⟩
  · simpa only [rotateRight_rotateLeft] using deliversY_ror_zext64 x b (rotateLeft r x)
  · simpa only [rotateLeft_width] using deliversY_rol_zext64 w.bits b r
  · rw [popcnt_rotateLeft]
  · rw [popcnt_rotateRight]

/-- Settles O41: a rotation to the right is one to the left, and each is the inverse of the other. -/
theorem rotationsCompose : Obligations.RotationsCompose := by
  unfold Obligations.RotationsCompose
  refine ⟨fun w shift s => ?_, fun w v b x z hv => ?_⟩
  · rw [deliversY_ror w shift _ _ s rfl rfl, rotateRight_eq_rotateLeft, ← deliversY_rol w _ _ _ s rfl rfl]
    exact exec_rol_congr (Nat.mod_mod _ _).symm s
  · obtain ⟨r, rfl⟩ := exists_eq_zext64 hv
    refine ⟨_, _, _, deliversY_rol_zext64 x b r, deliversY_rol_zext64 z b (rotateLeft r x), ?_,
      deliversY_ror_zext64 x b r, ?_, existsUnique_deliversY (rotateLeft_bijective x) (deliversY_rol_zext64 x b) r,
      existsUnique_deliversY (rotateRight_bijective x) (deliversY_ror_zext64 x b) r⟩
    · rw [rotateLeft_rotateLeft, ← rotateLeft_congr r (Nat.mod_mod (x + z) w.bits)]
      exact deliversY_rol_zext64 _ b r
    · simpa only [rotateLeft_rotateRight] using deliversY_rol_zext64 x b (rotateRight r x)

end Sys2Proof.Proofs
end

section
/-! The Population Count Unit (44_popcount_unit.md R110 to R112): the count that POPC delivers, on port `S`, is that of the
lane of `A`, and the host's complement by the full mask is the complement of that lane. -/

namespace Sys2Proof.Machine

open Sys2Proof.Safety

/-- POPC of any port word (R110). -/
theorem deliversS_popc {w : Width} {a : PortWord} {k : Nat} (hcount : popcnt (a.setWidth w.bits) = k) (b : PortWord) :
    DeliversS (.popc w) a b (BitVec.ofNat 8 k) := by
  rintro s rfl rfl
  rw [← hcount, ← BitVec.ofInt_natCast]
  rfl

/-- Each of the N summands is a bit (R110). -/
theorem bitSum_le (n v : Nat) : bitSum n v ≤ n := by
  have hbit : ∀ k ∈ Finset.range n, v / 2 ^ k % 2 ≤ 1 := fun k _ => Nat.le_of_lt_succ (Nat.mod_lt _ two_pos)
  simpa using Finset.sum_le_card_nsmul _ _ 1 hbit

/-- The scalar port holds every count, the largest being 64. -/
theorem toNat_ofNat_popcnt {w : Width} (r : RegVal w.bits) : (BitVec.ofNat 8 (popcnt r)).toNat = popcnt r := by
  have hcount := popcnt_le r
  have hbits := bits_le w
  exact Nat.mod_eq_of_lt (by omega)

/-- The exclusive or with N one-bits complements the lane (R112). -/
theorem setWidth_xor_zext64_allOnes (w : Width) (v : PortWord) :
    (v ^^^ zext64 (BitVec.allOnes w.bits)).setWidth w.bits = ~~~ v.setWidth w.bits := by
  rw [BitVec.setWidth_xor, setWidth_zext64, BitVec.xor_allOnes]

end Sys2Proof.Machine

namespace Sys2Proof.Proofs

open Sys2Proof.Machine Sys2Proof.Safety

/-- Settles O42: the count of the lane of `A` is the sum of its bits, at most N of which are 1. -/
theorem popcCountsOneBits : Obligations.PopcCountsOneBits := by
  unfold Obligations.PopcCountsOneBits
  refine ⟨encodedAs_of_decodeOp fun _ _ _ => rfl, fun w s => deliversS_popc (popcnt_operandA w.bits s.inputs) _ s rfl rfl,
    fun w v => bitSum_le w.bits v, fun s hcmd ha => ?_, fun s hcmd ha => ?_, fun s hcmd ha => ?_⟩
  · rw [step_of_cmd_eq hcmd (i := .popc .n8) rfl]
    exact deliversS_popc (k := 4) (by decide) _ s ha rfl
  · rw [step_of_cmd_eq hcmd (i := .popc .n8) rfl]
    exact deliversS_popc (k := 0) (by decide) _ s ha rfl
  · rw [step_of_cmd_eq hcmd (i := .popc .n64) rfl]
    exact deliversS_popc (k := 5) (by decide) _ s ha rfl

/-- Settles O43: `IMASK.N 0, 0` delivers N one-bits, and each bit is set in the lane or in its complement. -/
theorem popcountLaws : Obligations.PopcountLaws := by
  unfold Obligations.PopcountLaws
  intro w v b
  have hempty : ValidField w.bits 0 0 := ⟨le_rfl, le_rfl, by omega⟩
  have hones : DeliversY (.imask w 0 0) v b (zext64 (BitVec.allOnes w.bits)) := by
    simpa using deliversY_imask hempty v b
  refine ⟨_, _, _, hones, deliversS_popc rfl b, deliversS_popc rfl b, ?_⟩
  rw [toNat_ofNat_popcnt, toNat_ofNat_popcnt, setWidth_xor_zext64_allOnes]
  exact popcnt_add_popcnt_not _

end Sys2Proof.Proofs
end

section
/-! The Parity Detector (45_parity_detector.md R115, R116): PAR delivers, on port `T`, whether the count of one-bits in the
lane of `A` is odd; the counts of the rule's corner cases are 0, N and 1. -/

namespace Sys2Proof.Machine

open Sys2Proof.Safety

/-- PAR of any port word (R115). -/
theorem deliversT_par {w : Width} {a : PortWord} {k : Nat} (hcount : popcnt (a.setWidth w.bits) = k) (b : PortWord) :
    DeliversT (.par w) a b (decide (k % 2 = 1)) := by
  rintro s rfl rfl
  rw [← hcount]
  rfl

theorem popcnt_ofNat_two_pow {n k : Nat} (hk : k < n) : popcnt (BitVec.ofNat n (2 ^ k)) = 1 :=
  (popcnt_eq_one_iff _).mpr ⟨k, hk, Nat.mod_eq_of_lt (Nat.pow_lt_pow_right one_lt_two hk)⟩

theorem popcnt_ofNat_two_pow_sub_one (n : Nat) : popcnt (BitVec.ofNat n (2 ^ n - 1)) = n := by
  rw [← toNat_fwdMask le_rfl, BitVec.ofNat_toNat, BitVec.setWidth_eq, ← forwardMask_start_zero]
  exact popcnt_forwardMask (Nat.zero_add n).le

theorem bits_mod_two (w : Width) : w.bits % 2 = 0 := by cases w <;> decide

end Sys2Proof.Machine

namespace Sys2Proof.Proofs

open Sys2Proof.Machine Sys2Proof.Safety

/-- Settles O44: the count of the lane of `A` is the sum of its bits; every width is even, so all ones are an even count. -/
theorem parIsOddCount : Obligations.ParIsOddCount := by
  unfold Obligations.ParIsOddCount
  refine ⟨encodedAs_of_decodeOp fun _ _ _ => rfl, fun w s => deliversT_par (popcnt_operandA w.bits s.inputs) _ s rfl rfl,
    fun w b => ⟨?_, ?_, fun k hk => ?_⟩, fun s hcmd ha => ?_⟩
  · exact deliversT_par (k := 0) ((popcnt_eq_zero_iff _).mpr (BitVec.setWidth_zero w.bits 64)) b
  · have hcount : popcnt ((BitVec.ofNat 64 (2 ^ w.bits - 1)).setWidth w.bits) = w.bits := by
      rw [BitVec.setWidth_ofNat_of_le (bits_le w), popcnt_ofNat_two_pow_sub_one]
    simpa [bits_mod_two] using deliversT_par hcount b
  · exact deliversT_par (k := 1) (by rw [BitVec.setWidth_ofNat_of_le (bits_le w), popcnt_ofNat_two_pow hk]) b
  · rw [step_of_cmd_eq hcmd (i := .par .n64) rfl]
    exact deliversT_par (k := 5) (by decide) _ s ha rfl

end Sys2Proof.Proofs
end

section
/-! The lsb_locator (46_lsb_locator.md R120, R121): FSB delivers, on port `S`, the least set index of the lane of `A`,
and the sentinel -1 where that lane is 0; what the index is to the single-bit operations and to a forward mask. -/

namespace Sys2Proof.Machine

open Sys2Proof.Safety

/-! ## The least set bit of a value -/

theorem firstSetBit_of_leastSetBit_eq_some {n k : Nat} {r : RegVal n} (h : leastSetBit r = some k) :
    firstSetBit r = k := by
  rw [firstSetBit, h]

@[simp] theorem firstSetBit_zero (n : Nat) : firstSetBit 0#n = -1 := by
  rw [firstSetBit, (leastSetBit_eq_none 0#n).mpr rfl]

theorem setWidth_eq_zero_iff (n : Nat) (v : PortWord) : v.setWidth n = 0#n ↔ v.toNat % 2 ^ n = 0 :=
  operandA_eq_zero_iff n { cmd := 0, a := v, b := 0 }

theorem exists_leastSetBit_eq_some {n : Nat} {v : PortWord} (hv : v.toNat % 2 ^ n ≠ 0) :
    ∃ k, leastSetBit (v.setWidth n) = some k := by
  rwa [← Option.ne_none_iff_exists', Ne, leastSetBit_eq_none, setWidth_eq_zero_iff]

/-- The least set bit of a lane is the least set bit of the port, below N (R27). -/
theorem leastSetBit_setWidth_eq_some_iff {n k : Nat} {v : PortWord} :
    leastSetBit (v.setWidth n) = some k ↔ k < n ∧ v.getLsbD k = true ∧ ∀ j, j < k → v.getLsbD j = false := by
  rw [leastSetBit_eq_some]
  refine and_congr_right fun hk => and_congr ?_ (forall₂_congr fun j hj => ?_)
  · rw [BitVec.getLsbD_setWidth, decide_eq_true hk, Bool.true_and]
  · rw [BitVec.getLsbD_setWidth, decide_eq_true (hj.trans hk), Bool.true_and]

/-- A value and its negation share their lowest set bit and no other (R121). -/
theorem and_neg_eq_bitMask {n k : Nat} {r : RegVal n} (h : leastSetBit r = some k) : r &&& -r = bitMask n k := by
  obtain ⟨hk, hset, hlow⟩ := (leastSetBit_eq_some r k).mp h
  apply BitVec.eq_of_getLsbD_eq
  intro j hj
  rw [BitVec.getLsbD_and, BitVec.getLsbD_neg, getLsbD_bitMask]
  rcases Nat.lt_trichotomy j k with hlt | rfl | hgt
  · simp [hlow j hlt, hlt.ne]
  · have hnone : ¬ ∃ i < j, r.getLsbD i = true := by
      rintro ⟨i, hi, hbit⟩
      simp [hlow i hi] at hbit
    simp [hset, hj, hnone]
  · have hsome : ∃ i < j, r.getLsbD i = true := ⟨k, hgt, hset⟩
    simp [hj, hsome, hgt.ne']

theorem toNat_bitMask {n k : Nat} (hk : k < n) : (bitMask n k).toNat = 2 ^ k := by
  rw [bitMask, ← BitVec.twoPow_eq, BitVec.toNat_twoPow_of_lt hk]

/-- The isolated lowest set bit as an integer (R121). -/
theorem two_pow_eq_and_two_pow_sub {n k : Nat} {r : RegVal n} (h : leastSetBit r = some k) :
    2 ^ k = r.toNat &&& (2 ^ n - r.toNat) := by
  obtain ⟨hk, -, -⟩ := (leastSetBit_eq_some r k).mp h
  have hne : r ≠ 0#n := mt (leastSetBit_eq_none r).mpr (by simp [h])
  rw [← toNat_bitMask hk, ← and_neg_eq_bitMask h, BitVec.toNat_and,
    BitVec.toNat_neg_of_pos ((BitVec.pos_iff_ne_zero r).mpr hne)]

/-- The interval of a forward mask begins at its start (R121). -/
theorem leastSetBit_forwardMask {n len start : Nat} (h : start + len ≤ n) (hlen : 0 < len) :
    leastSetBit (forwardMask n len start) = some start := by
  rw [leastSetBit_eq_some]
  refine ⟨by omega, ?_, fun j hj => ?_⟩
  · rw [getLsbD_forwardMask h]
    exact decide_eq_true (by omega)
  · rw [getLsbD_forwardMask h]
    exact decide_eq_false (by omega)

/-! ## The operation -/

/-- FSB of any port word (R120). -/
theorem deliversS_fsb {w : Width} {a : PortWord} {k : Int} (hfirst : firstSetBit (a.setWidth w.bits) = k)
    (b : PortWord) : DeliversS (.fsb w) a b (BitVec.ofInt 8 k) := by
  rintro s rfl rfl
  rw [← hfirst]
  rfl

/-- FSB of a lane with a set bit (R120). -/
theorem deliversS_fsb_of_leastSetBit {w : Width} {a : PortWord} {k : Nat}
    (h : leastSetBit (a.setWidth w.bits) = some k) (b : PortWord) : DeliversS (.fsb w) a b (BitVec.ofNat 8 k) :=
  BitVec.ofInt_natCast 8 k ▸ deliversS_fsb (firstSetBit_of_leastSetBit_eq_some h) b

/-- FSB of an empty lane (R120). -/
theorem deliversS_fsb_sentinel {w : Width} {a : PortWord} (h : a.toNat % 2 ^ w.bits = 0) (b : PortWord) :
    DeliversS (.fsb w) a b 0xFF :=
  deliversS_fsb (k := -1) (by rw [(setWidth_eq_zero_iff _ a).mpr h, firstSetBit_zero]) b

/-- TSTB at an index below N reads the port's bit (R94). -/
theorem deliversT_tstb_of_lt {w : Width} {j : Nat} (hj : j < w.bits) (a b : PortWord) :
    DeliversT (.tstb w j) a b (a.getLsbD j) := by
  simpa [isBitSet_eq, hj] using deliversT_tstb (w := w) (idx := j) ⟨by omega, by omega⟩ a b

/-- The sentinel is no index at any width (R90). -/
theorem not_validIndex_sentinel (n : Nat) : ¬ ValidIndex n (s8 0xFF) := by
  rintro ⟨hnonneg, -⟩
  exact absurd hnonneg (by decide)

end Sys2Proof.Machine

namespace Sys2Proof.Proofs

open Sys2Proof.Machine Sys2Proof.Safety

/-- Settles O45: the scan finds the least set bit of the lane of `A`, or nothing when that lane is 0. -/
theorem fsbFindsTheLeastSetBit : Obligations.FsbFindsTheLeastSetBit := by
  unfold Obligations.FsbFindsTheLeastSetBit
  refine ⟨encodedAs_of_decodeOp fun _ _ _ => rfl, fun w s hzero => deliversS_fsb_sentinel hzero _ s rfl rfl,
    fun w s hne => ?_, fun s hcmd ha => ?_, fun s hcmd ha => ?_, fun s hcmd ha => ?_⟩
  · obtain ⟨k, hleast⟩ := exists_leastSetBit_eq_some hne
    obtain ⟨hk, hset, hlow⟩ := leastSetBit_setWidth_eq_some_iff.mp hleast
    exact ⟨k, hk, hset, hlow, deliversS_fsb_of_leastSetBit hleast _ s rfl rfl⟩
  · rw [step_of_cmd_eq hcmd (i := .fsb .n8) rfl]
    exact deliversS_fsb_sentinel (by decide) _ s ha rfl
  · rw [step_of_cmd_eq hcmd (i := .fsb .n8) rfl]
    exact deliversS_fsb_of_leastSetBit (k := 2) (by decide) _ s ha rfl
  · rw [step_of_cmd_eq hcmd (i := .fsb .n64) rfl]
    exact deliversS_fsb_sentinel (by decide) _ s ha rfl

/-- Settles O46: TSTB reads the bits among which FSB finds the least one that is set. -/
theorem fsbLaws : Obligations.FsbLaws := by
  unfold Obligations.FsbLaws
  refine ⟨fun w b => deliversS_fsb_sentinel (Nat.zero_mod _) b, fun w v b hne => ?_⟩
  obtain ⟨k, hleast⟩ := exists_leastSetBit_eq_some hne
  obtain ⟨hk, hset, hlow⟩ := leastSetBit_setWidth_eq_some_iff.mp hleast
  refine ⟨k, hk, deliversS_fsb_of_leastSetBit hleast b, ?_, fun j hj => ?_⟩
  · rw [← hset]
    exact deliversT_tstb_of_lt hk v b
  · rw [← hlow j hj]
    exact deliversT_tstb_of_lt (hj.trans hk) v b

/-- Settles O47: the found index is below N and the sentinel is negative; the mask's lowest set bit is its start. -/
theorem fsbFeedsTheBitOperations : Obligations.FsbFeedsTheBitOperations := by
  unfold Obligations.FsbFeedsTheBitOperations
  refine ⟨fun w v b hne => ?_, fun w => ?_, fun w len start a b h hlen => ?_⟩
  · obtain ⟨k, hleast⟩ := exists_leastSetBit_eq_some hne
    obtain ⟨hk, -, -⟩ := leastSetBit_setWidth_eq_some_iff.mp hleast
    have hvalid : ValidIndex w.bits k := ⟨by omega, by omega⟩
    have hisolated := two_pow_eq_and_two_pow_sub hleast
    rw [BitVec.toNat_setWidth] at hisolated
    exact ⟨k, hk, deliversS_fsb_of_leastSetBit hleast b,
      ⟨_, _, _, deliversY_setb hvalid v b, deliversY_clrb hvalid v b, deliversY_tglb hvalid v b⟩,
      ⟨_, deliversT_tstb hvalid v b⟩, hisolated⟩
  · have hfails {i : Instr} (hi : IsBitOp w (s8 0xFF) i) : FailsWith i 2 := hi.failsWith (not_validIndex_sentinel _)
    exact ⟨hfails (.inl rfl), hfails (.inr (.inl rfl)), hfails (.inr (.inr (.inl rfl))),
      hfails (.inr (.inr (.inr rfl)))⟩
  · have hleast := leastSetBit_forwardMask (toNat_add_toNat_le_of_valid h) (by omega : 0 < len.toNat)
    have hfirst : firstSetBit ((zext64 (forwardMask w.bits len.toNat start.toNat)).setWidth w.bits) = start := by
      rw [setWidth_zext64, firstSetBit_of_leastSetBit_eq_some hleast, Int.toNat_of_nonneg h.1]
    exact ⟨_, deliversY_fmask h a b, deliversS_fsb hfirst b⟩

end Sys2Proof.Proofs
end

section
/-! The power-of-two test (47_power_of_two.md R125, R126): ISP2 delivers, on port `T`, whether the lane of `A` has exactly one
one-bit, which is the rule's test on integers. -/

namespace Sys2Proof.Machine

open Sys2Proof.Safety

/-- The test of R125 on integers. -/
theorem isPowerOfTwo_eq_true_iff {n : Nat} (a : RegVal n) :
    isPowerOfTwo a = true ↔ 0 < a.toNat ∧ a.toNat &&& (a.toNat - 1) = 0 := by
  rw [isPowerOfTwo_eq_power, power_iff a.isLt, ← Nat.ne_zero_and_sub_one_eq_zero_iff_isPowerOfTwo, Nat.pos_iff_ne_zero]

theorem isPowerOfTwo_eq_true_iff_popcnt {n : Nat} (a : RegVal n) : isPowerOfTwo a = true ↔ popcnt a = 1 := by
  rw [isPowerOfTwo_eq_power, power_eq_true_iff, popcnt_eq_one_iff]

/-- ISP2 of any port word (R125). -/
theorem deliversT_isp2 {w : Width} {a : PortWord} {t : Bool} (ht : isPowerOfTwo (a.setWidth w.bits) = t) (b : PortWord) :
    DeliversT (.isp2 w) a b t := by
  rintro s rfl rfl
  rw [← ht]
  rfl

theorem deliversT_isp2_zero (w : Width) (b : PortWord) : DeliversT (.isp2 w) 0 b false :=
  deliversT_isp2 (by cases w <;> rfl) b

/-- A count on the 8-bit port is 1 only if the count is, since no count exceeds 64. -/
theorem ofNat_popcnt_eq_one_iff {w : Width} (r : RegVal w.bits) : BitVec.ofNat 8 (popcnt r) = 1 ↔ popcnt r = 1 := by
  rw [← BitVec.toNat_inj, toNat_ofNat_popcnt]
  rfl

end Sys2Proof.Machine

namespace Sys2Proof.Proofs

open Sys2Proof.Machine Sys2Proof.Safety

/-- Settles O48: the operation's test on the lane of `A` is the rule's test on its integer. -/
theorem isp2TestsForAPower : Obligations.Isp2TestsForAPower := by
  unfold Obligations.Isp2TestsForAPower
  refine ⟨encodedAs_of_decodeOp fun _ _ _ => rfl,
    fun w s => ⟨isPowerOfTwo (operandA w.bits s.inputs), rfl, ?_⟩,
    fun s hcmd ha => ?_, fun s hcmd ha => ?_, fun s hcmd ha => ?_, fun s hcmd ha => ?_⟩
  · rw [isPowerOfTwo_eq_true_iff, toNat_operandA]
  · rw [step_of_cmd_eq hcmd (i := .isp2 .n8) rfl]
    exact deliversT_isp2 (by decide) _ s ha rfl
  · rw [step_of_cmd_eq hcmd (i := .isp2 .n64) rfl]
    exact deliversT_isp2 (by decide) _ s ha rfl
  · rw [step_of_cmd_eq hcmd (i := .isp2 .n16) rfl]
    exact deliversT_isp2 (by decide) _ s ha rfl
  · rw [step_of_cmd_eq hcmd (i := .isp2 .n8) rfl]
    exact deliversT_isp2 (by decide) _ s ha rfl

/-- Settles O49: a lane passes the test exactly when it has one one-bit, and POPC delivers that count unchanged. -/
theorem isp2Laws : Obligations.Isp2Laws := by
  unfold Obligations.Isp2Laws
  refine fun w b => ⟨deliversT_isp2_zero w b, deliversT_isp2 (by cases w <;> rfl) b, fun k hk => deliversT_isp2 ?_ b,
    fun v => ⟨_, _, deliversT_isp2 rfl b, deliversS_popc rfl b, ?_⟩⟩
  · rw [BitVec.setWidth_ofNat_of_le (bits_le w), isPowerOfTwo_eq_true_iff_popcnt, popcnt_ofNat_two_pow hk]
  · rw [isPowerOfTwo_eq_true_iff_popcnt, ofNat_popcnt_eq_one_iff]

end Sys2Proof.Proofs
end

section
/-! Errors (60_exceptions.md R130 to R147): every transaction is one checked operation, whose check is a function of the command
word alone; each code's condition is read off that function. -/

namespace Sys2Proof.Machine

open Sys2Proof.Safety

/-! ## The one check of a transaction -/

/-- What the operand checks of an operation raise (R132, R133, R137). -/
def operandError : Instr → Option ErrCode
  | .fmask w len start => descriptorError w.bits start len
  | .imask w len start => descriptorError w.bits start len
  | .rdf w start len => descriptorError w.bits start len
  | .wrf w start len => descriptorError w.bits start len
  | .setb w idx => indexError w.bits idx
  | .clrb w idx => indexError w.bits idx
  | .tglb w idx => indexError w.bits idx
  | .tstb w idx => indexError w.bits idx
  | .rol _ _ => none
  | .ror _ _ => none
  | .popc _ => none
  | .par _ => none
  | .fsb _ => none
  | .isp2 _ => none

/-- What a command word raises: its legality first, then the operand checks (R136). -/
def commandError (c : CmdWord) : Option ErrCode :=
  match decode c with
  | .ok i => operandError i
  | .error _ => some .illegalCmd

/-- An operation raises the error of its operand checks, else drives a result. -/
theorem exec_eq_checked (i : Instr) (s : State) :
    ∃ y k t, exec i s = checked (operandError i) s (succeed y k t s) := by
  cases i <;> exact ⟨_, _, _, rfl⟩

theorem commandError_of_decode_ok {c : CmdWord} {i : Instr} (h : decode c = .ok i) : commandError c = operandError i := by
  rw [commandError, h]

theorem commandError_of_illegalWord {c : CmdWord} (h : IllegalWord c) : commandError c = some .illegalCmd := by
  obtain ⟨e, he⟩ := (decode_error_iff c).mpr h
  rw [commandError, he]

/-- A step raises the error of its command word, else drives a result (R31, R138). -/
theorem step_eq_checked (s : State) :
    ∃ y k t, step s = checked (commandError s.inputs.cmd) s (succeed y k t s) := by
  obtain ⟨i, hi, hstep⟩ | ⟨e, he, hstep⟩ := step_cases s
  · rw [hstep, commandError_of_decode_ok hi]
    exact exec_eq_checked i s
  · rw [hstep, commandError_of_illegalWord ((decode_error_iff _).mp ⟨e, he⟩)]
    exact ⟨0, 0, false, rfl⟩

/-- The number on port `ERR`: of the error raised, else of success (R130). -/
def reported (check : Option ErrCode) : BitVec 3 := check.elim errOk errNumber

theorem reported_eq_errNumber_iff (check : Option ErrCode) (e : ErrCode) :
    reported check = errNumber e ↔ check = some e := by
  rcases check with _ | e'
  · exact iff_of_false (errNumber_ne_zero e).symm nofun
  · cases e' <;> cases e <;> decide

/-- The state that a checked operation leaves shows the number of its check. -/
theorem checked_succeed_err (check : Option ErrCode) (y : PortWord) (k : BitVec 8) (t : Bool) (s : State) :
    ∃ u, checked check s (succeed y k t s) = .next u ∧ u.outputs.err = reported check := by
  cases check <;> exact ⟨_, rfl, rfl⟩

/-! ## The status outputs of the block -/

/-- A word whose check raises gives the failed outputs, any other one a success (R134, R135). -/
theorem block_cases (p : Inputs) :
    (∃ e, commandError p.cmd = some e ∧ Reference.block p = failed p (errNumber e)) ∨
    (commandError p.cmd = none ∧ (Reference.block p).err = 0 ∧ (Reference.block p).einfo = 0) := by
  obtain ⟨y, k, t, hstep⟩ := step_eq_checked (present p State.reset)
  rw [Proofs.stepIsTheBlockFunction, present_inputs] at hstep
  cases h : commandError p.cmd with
  | some e =>
    rw [h] at hstep
    injection hstep with hstate
    exact .inl ⟨e, rfl, congrArg State.outputs hstate⟩
  | none =>
    rw [h] at hstep
    injection hstep with hstate
    have hout := congrArg State.outputs hstate
    exact .inr ⟨rfl, congrArg Outputs.err hout, congrArg Outputs.einfo hout⟩

theorem block_err (p : Inputs) : (Reference.block p).err = reported (commandError p.cmd) := by
  obtain ⟨e, he, hblock⟩ | ⟨hnone, herr, -⟩ := block_cases p
  · rw [he, hblock]
    rfl
  · rw [hnone, herr]
    rfl

theorem block_einfo (p : Inputs) : (Reference.block p).einfo = (commandError p.cmd).elim 0 fun _ => p.cmd := by
  obtain ⟨e, he, hblock⟩ | ⟨hnone, -, heinfo⟩ := block_cases p
  · rw [he, hblock]
    rfl
  · rw [hnone, heinfo]
    rfl

theorem block_err_eq_iff (p : Inputs) (e : ErrCode) :
    (Reference.block p).err = errNumber e ↔ commandError p.cmd = some e := by
  rw [block_err, reported_eq_errNumber_iff]

/-! ## The check in the fields of the word -/

theorem operandError_of_decodeOp {op : BitVec 4} {w : Width} {pos len : BitVec 8} {i : Instr}
    (h : decodeOp op w pos len = .ok i) :
    operandError i = if op.toNat ≤ 3 then descriptorError w.bits pos.toInt len.toInt
      else if op.toNat ≤ 7 then indexError w.bits pos.toInt else none := by
  simp only [← s8_eq_toInt]
  unfold decodeOp at h
  generalize op.toNat = k at *
  split at h <;> cases h <;> rfl

/-- The checks in the order of R136. -/
theorem commandError_eq (c : CmdWord) :
    commandError c = if IllegalWord c then some .illegalCmd
      else if (cmdOp c).toNat ≤ 3 then descriptorError (cmdBits c) (cmdPos c).toInt (cmdLen c).toInt
      else if (cmdOp c).toNat ≤ 7 then indexError (cmdBits c) (cmdPos c).toInt else none := by
  by_cases h : IllegalWord c
  · rw [if_pos h, commandError_of_illegalWord h]
  · obtain ⟨i, hi⟩ := (decode_ok_iff c).mpr h
    rw [if_neg h, commandError_of_decode_ok hi, operandError_of_decodeOp (decode_ok_fields hi).2, bits_widthOfWsel]
    rfl

/-- The check looks at no field that the operation does not read (R56). -/
theorem commandError_of_sameReadFields {c c' : CmdWord} (h : SameReadFields c c') : commandError c = commandError c' := by
  obtain ⟨hop, -, hrsv⟩ := control_of_sameReadFields h
  by_cases hill : IllegalWord c
  · rw [commandError_of_illegalWord hill, commandError_of_illegalWord ((illegalWord_congr hop hrsv).mp hill)]
  · obtain ⟨i, hi⟩ := (decode_ok_iff c).mpr hill
    rw [commandError_of_decode_ok hi, commandError_of_decode_ok (decode_of_sameReadFields h hi)]

/-! ## The condition of each code -/

theorem indexError_eq_some_iff {n : Nat} {idx : Int} {e : ErrCode} :
    indexError n idx = some e ↔ e = .indexRange ∧ ¬ ValidIndex n idx := by
  by_cases h : ValidIndex n idx
  · simp [indexError_of_valid h, h]
  · simp [indexError_of_invalid h, h, eq_comm]

section Descriptor

variable {n : Nat} {start len : Int}

theorem descriptorError_eq_startNeg_iff : descriptorError n start len = some .startNeg ↔ start < 0 := by
  unfold descriptorError
  split_ifs <;> simp [*]

theorem descriptorError_eq_lenNeg_iff : descriptorError n start len = some .lenNeg ↔ 0 ≤ start ∧ len < 0 := by
  unfold descriptorError
  split_ifs <;> simp <;> omega

theorem descriptorError_eq_fieldOverrun_iff :
    descriptorError n start len = some .fieldOverrun ↔ 0 ≤ start ∧ 0 ≤ len ∧ start + len > n := by
  unfold descriptorError
  split_ifs <;> simp <;> omega

/-- No other code comes from the check of a descriptor (R133). -/
theorem descriptorError_ne {e : ErrCode} (h : e = .illegalCmd ∨ e = .indexRange) :
    descriptorError n start len ≠ some e := by
  unfold descriptorError
  obtain rfl | rfl := h <;> split_ifs <;> decide

theorem descriptorError_eq_some_iff_not_valid :
    (descriptorError n start len = some .startNeg ∨ descriptorError n start len = some .lenNeg ∨
      descriptorError n start len = some .fieldOverrun) ↔ ¬ ValidField n start len := by
  rw [descriptorError_eq_startNeg_iff, descriptorError_eq_lenNeg_iff, descriptorError_eq_fieldOverrun_iff]
  unfold ValidField
  omega

end Descriptor

theorem commandError_eq_illegalCmd_iff (c : CmdWord) : commandError c = some .illegalCmd ↔ IllegalWord c := by
  rw [commandError_eq]
  split_ifs with hill
  · exact iff_of_true rfl hill
  · exact iff_of_false (descriptorError_ne (.inl rfl)) hill
  · exact iff_of_false (fun h => nomatch (indexError_eq_some_iff.mp h).1) hill
  · exact iff_of_false nofun hill

theorem commandError_eq_indexRange_iff (c : CmdWord) :
    commandError c = some .indexRange ↔ cmdRsv c = 0#2 ∧ 4 ≤ (cmdOp c).toNat ∧ (cmdOp c).toNat ≤ 7 ∧
      ¬ ValidIndex (cmdBits c) (cmdPos c).toInt := by
  rw [commandError_eq]
  split_ifs with hill hfield hbit
  · refine iff_of_false nofun fun ⟨hrsv, _, hop, _⟩ => ?_
    exact absurd hill ((not_illegalWord_iff c).mpr ⟨hrsv, by omega⟩)
  · exact iff_of_false (descriptorError_ne (.inr rfl)) (by omega)
  · obtain ⟨hrsv, -⟩ := (not_illegalWord_iff c).mp hill
    rw [indexError_eq_some_iff, and_iff_right rfl, and_iff_right hrsv, and_iff_right (by omega), and_iff_right hbit]
  · exact iff_of_false nofun (by omega)

/-- The other three codes come from the check of a descriptor (R133). -/
theorem commandError_eq_descriptorError_iff (c : CmdWord) {e : ErrCode} (h1 : e ≠ .illegalCmd) (h2 : e ≠ .indexRange) :
    commandError c = some e ↔ (cmdRsv c = 0#2 ∧ (cmdOp c).toNat ≤ 3) ∧
      descriptorError (cmdBits c) (cmdPos c).toInt (cmdLen c).toInt = some e := by
  rw [commandError_eq]
  split_ifs with hill hfield hbit
  · refine iff_of_false (fun h => h1 (Option.some.inj h).symm) fun ⟨⟨hrsv, hop⟩, _⟩ => ?_
    exact absurd hill ((not_illegalWord_iff c).mpr ⟨hrsv, by omega⟩)
  · obtain ⟨hrsv, -⟩ := (not_illegalWord_iff c).mp hill
    rw [and_iff_right ⟨hrsv, hfield⟩]
  · exact iff_of_false (fun h => h2 (indexError_eq_some_iff.mp h).1) (by omega)
  · exact iff_of_false nofun (by omega)

/-- The operand checks of an operation raise the codes of its row (R147). -/
theorem reported_operandError_mem_codesOf (i : Instr) : reported (operandError i) ∈ codesOf i := by
  have hfield (n : Nat) (start len : Int) : reported (descriptorError n start len) ∈ [0, 3, 4, 5] := by
    unfold descriptorError
    split_ifs <;> decide
  have hindex (n : Nat) (idx : Int) : reported (indexError n idx) ∈ [0, 2] := by
    unfold indexError
    split_ifs <;> decide
  cases i with
  | fmask | imask | rdf | wrf => exact hfield _ _ _
  | setb | clrb | tglb | tstb => exact hindex _ _
  | rol | ror | popc | par | fsb | isp2 => exact List.mem_singleton_self _

/-! ## The unsigned readings -/

theorem cmdBits_le (c : CmdWord) : cmdBits c ≤ 64 := (bits_widthOfWsel (cmdWsel c)).symm.trans_le (bits_le _)

/-- A byte that is negative when read signed is at least 128 when read unsigned, above every width. -/
theorem not_validIndex_toInt_iff {n : Nat} (hn : n ≤ 64) (x : BitVec 8) : ¬ ValidIndex n x.toInt ↔ n ≤ x.toNat := by
  have hx := x.isLt
  rw [← s8_eq_toInt, s8, ValidIndex]
  split <;> omega

theorem not_validField_toInt_iff {n : Nat} (hn : n ≤ 64) (x z : BitVec 8) :
    ¬ ValidField n x.toInt z.toInt ↔ n < x.toNat + z.toNat := by
  have hx := x.isLt
  have hz := z.isLt
  rw [← s8_eq_toInt, ← s8_eq_toInt, s8, s8, ValidField]
  split <;> split <;> omega

end Sys2Proof.Machine

namespace Sys2Proof.Proofs

open Sys2Proof.Machine Sys2Proof.Safety

/-- Settles O52: the step is the integer block, whose number is that of the word's check, and the operand checks raise no
error 1. -/
theorem illegalCommandExactly : Obligations.IllegalCommandExactly := by
  unfold Obligations.IllegalCommandExactly
  intro s
  exact ⟨_, stepIsTheBlockFunction s, (block_err_eq_iff s.inputs .illegalCmd).trans (commandError_eq_illegalCmd_iff _)⟩

/-- Settles O53: only the check of an index raises error 2. -/
theorem indexRangeExactly : Obligations.IndexRangeExactly := by
  unfold Obligations.IndexRangeExactly
  intro s
  have hinvalid (n : Nat) (idx : Int) : ¬ ValidIndex n idx ↔ idx < 0 ∨ idx ≥ n := by
    unfold ValidIndex
    omega
  refine ⟨_, stepIsTheBlockFunction s, ?_⟩
  rw [← hinvalid]
  exact (block_err_eq_iff s.inputs .indexRange).trans (commandError_eq_indexRange_iff _)

/-- Settles O54: only the check of a descriptor raises errors 3, 4 and 5, each by its own precondition. -/
theorem fieldErrorsExactly : Obligations.FieldErrorsExactly := by
  unfold Obligations.FieldErrorsExactly
  intro s
  refine ⟨_, stepIsTheBlockFunction s, ?_, ?_, ?_⟩
  · rw [← descriptorError_eq_startNeg_iff]
    exact (block_err_eq_iff s.inputs .startNeg).trans (commandError_eq_descriptorError_iff _ nofun nofun)
  · rw [← descriptorError_eq_lenNeg_iff]
    exact (block_err_eq_iff s.inputs .lenNeg).trans (commandError_eq_descriptorError_iff _ nofun nofun)
  · rw [← descriptorError_eq_fieldOverrun_iff]
    exact (block_err_eq_iff s.inputs .fieldOverrun).trans (commandError_eq_descriptorError_iff _ nofun nofun)

/-- Settles O55: N is at most 64, so an operand that is negative read signed is out of range read unsigned as well. -/
theorem unsignedReadingsOfTheChecks : Obligations.UnsignedReadingsOfTheChecks := by
  unfold Obligations.UnsignedReadingsOfTheChecks
  intro s
  refine ⟨_, stepIsTheBlockFunction s, ?_, ?_, fun herr => ?_⟩
  · rw [ge_iff_le, ← not_validIndex_toInt_iff (cmdBits_le _)]
    exact (block_err_eq_iff s.inputs .indexRange).trans (commandError_eq_indexRange_iff _)
  · have hfield (e : ErrCode) (h1 : e ≠ .illegalCmd) (h2 : e ≠ .indexRange) :=
      (block_err_eq_iff s.inputs e).trans (commandError_eq_descriptorError_iff _ h1 h2)
    rw [gt_iff_lt, ← not_validField_toInt_iff (cmdBits_le _), ← descriptorError_eq_some_iff_not_valid, ← and_assoc,
      and_or_left, and_or_left]
    exact or_congr (hfield .startNeg nofun nofun)
      (or_congr (hfield .lenNeg nofun nofun) (hfield .fieldOverrun nofun nofun))
  · obtain ⟨o, hstep, -, -, hfailure, -⟩ := step_legalOutputs s
    rw [stepIsTheBlockFunction s] at hstep
    cases hstep
    obtain ⟨-, -, -, -, heinfo⟩ := hfailure herr
    exact heinfo

/-- Settles O56: a word whose check raises gives the failed outputs, and one whose check does not gives `ERR` and `EINFO` 0;
the check does not see `A` and `B`. -/
theorem failureShowsCodeAndCommand : Obligations.FailureShowsCodeAndCommand := by
  unfold Obligations.FailureShowsCodeAndCommand
  refine ⟨fun s => ⟨_, stepIsTheBlockFunction s, ?_⟩, fun s s' hcmd =>
    ⟨_, _, stepIsTheBlockFunction s, stepIsTheBlockFunction s', ?_, ?_⟩⟩
  · obtain ⟨e, -, hblock⟩ | ⟨-, herr, heinfo⟩ := block_cases s.inputs
    · rw [hblock]
      exact ⟨fun herr => ⟨rfl, rfl, fun c => if_neg herr⟩, fun herr => absurd herr (errNumber_ne_zero e)⟩
    · exact ⟨(absurd herr ·), fun _ => heinfo⟩
  · rw [block_err, block_err, hcmd]
  · rw [block_einfo, block_einfo, hcmd]

/-- Settles O57: the order of the checks in the fields of the word, with each check's own order inside. -/
theorem errorPriority : Obligations.ErrorPriority := by
  unfold Obligations.ErrorPriority
  refine ⟨fun s => ⟨_, stepIsTheBlockFunction s, ?_⟩, fun s hcmd => ?_, fun s hcmd => ?_⟩
  · simp only [block_err, commandError_eq, descriptorError, indexError, apply_ite reported]
    rfl
  · rw [step_of_cmd_eq hcmd (i := .fmask .n8 (-128) (-128)) rfl]
    exact IsFieldOp.failsWith (.inl rfl) (by decide) s
  · exact step_of_illegalWord (hcmd ▸ by decide)

/-- Settles O58: what is no error delivers, and the check of a word sees only what its operation reads, which for opcodes 8
to 13 is nothing that could be out of range. -/
theorem notErrors : Obligations.NotErrors := by
  unfold Obligations.NotErrors
  refine ⟨fun w start len a b h => ⟨_, deliversY_wrf h a b⟩,
    fun w b => ⟨deliversS_fsb_sentinel (Nat.zero_mod _) b, deliversT_isp2_zero w b⟩,
    fun w shift a b => ⟨_, _, deliversY_rol w shift b a, deliversY_ror w shift b a⟩,
    fun w start a b hlow hhigh => ?_,
    fun s s' hsame => ⟨_, _, stepIsTheBlockFunction s, stepIsTheBlockFunction s', ?_⟩,
    fun s hlow hhigh => ⟨_, stepIsTheBlockFunction s, ?_⟩⟩
  · have h : ValidField w.bits start 0 := ⟨hlow, le_rfl, by omega⟩
    exact ⟨_, _, _, _, deliversY_fmask h a b, deliversY_imask h a b, deliversY_rdf h a b, deliversY_wrf h a b⟩
  · rw [block_err, block_err, commandError_of_sameReadFields hsame]
  · change 8 ≤ (cmdOp s.inputs.cmd).toNat at hlow
    change (cmdOp s.inputs.cmd).toNat ≤ 13 at hhigh
    change _ = if cmdRsv s.inputs.cmd = 0#2 then (0 : BitVec 3) else 1
    rw [block_err]
    split_ifs with hrsv
    · have hlegal := (not_illegalWord_iff s.inputs.cmd).mpr ⟨hrsv, by omega⟩
      rw [commandError_eq, if_neg hlegal, if_neg (by omega), if_neg (by omega)]
      rfl
    · rw [commandError_of_illegalWord (.inl hrsv)]
      rfl

/-- Settles O59: a run maps the integer block over its transactions, and a map goes through an insertion. -/
theorem failuresLeaveNothingBehind : Obligations.FailuresLeaveNothingBehind := by
  unfold Obligations.FailuresLeaveNothingBehind
  intro ps qs p s
  obtain ⟨last, hrun⟩ := runTransactions_eq_map_block (ps ++ p :: qs) s
  obtain ⟨last', hrun'⟩ := runTransactions_eq_map_block (ps ++ qs) s
  rw [List.map_append] at hrun hrun'
  exact ⟨_, _, _, last, last', hrun, hrun', List.length_map _, List.length_map _⟩

/-- Settles O60: an operation raises only what its one check can, and each code of a check is reached at the ends of the valid
range. -/
theorem errorMatrix : Obligations.ErrorMatrix := by
  unfold Obligations.ErrorMatrix
  refine ⟨fun i s => ?_, fun w => ?_, illegalCommandExactly⟩
  · obtain ⟨y, k, t, hexec⟩ := exec_eq_checked i s
    obtain ⟨u, hu, herr⟩ := checked_succeed_err (operandError i) y k t s
    refine ⟨u, hexec.trans hu, ?_⟩
    rw [herr]
    exact reported_operandError_mem_codesOf i
  · have hstart {i : Instr} (hi : IsFieldOp w (-1) 0 i) : FailsWith i 3 := by
      obtain ⟨hfails, -⟩ := descriptorsAreCheckedNotClamped w _ _ i hi
      exact hfails (by decide)
    have hlen {i : Instr} (hi : IsFieldOp w 0 (-1) i) : FailsWith i 4 := by
      obtain ⟨-, hfails, -⟩ := descriptorsAreCheckedNotClamped w _ _ i hi
      exact hfails le_rfl (by decide)
    have hoverrun {start len : Int} {i : Instr} (hi : IsFieldOp w start len i)
        (h : 0 ≤ start ∧ 0 ≤ len ∧ w.bits < start + len) : FailsWith i 5 := by
      obtain ⟨hstart, hlen, hsum⟩ := h
      obtain ⟨-, -, hfails, -⟩ := descriptorsAreCheckedNotClamped w start len i hi
      exact hfails hstart hlen hsum
    have hindex {i : Instr} (hi : IsBitOp w w.bits i) : FailsWith i 2 := hi.failsWith fun h => lt_irrefl _ h.2
    exact ⟨hstart (.inl rfl), hlen (.inl rfl), hoverrun (.inl rfl) (by omega),
      hstart (.inr (.inl rfl)), hlen (.inr (.inl rfl)), hoverrun (.inr (.inl rfl)) (by omega),
      hstart (.inr (.inr (.inl rfl))), hlen (.inr (.inr (.inl rfl))), hoverrun (.inr (.inr (.inl rfl))) (by omega),
      hstart (.inr (.inr (.inr rfl))), hlen (.inr (.inr (.inr rfl))), hoverrun (.inr (.inr (.inr rfl))) (by omega),
      hindex (.inl rfl), hindex (.inr (.inl rfl)), hindex (.inr (.inr (.inl rfl))), hindex (.inr (.inr (.inr rfl)))⟩

/-- Settles O15: a transaction shows the integer block of its inputs, whatever stood on the ports, and every step leaves legal
outputs. -/
theorem firstTransactionIsLikeAnyOther : Obligations.FirstTransactionIsLikeAnyOther := by
  unfold Obligations.FirstTransactionIsLikeAnyOther
  intro p s
  obtain ⟨o, hstep, hlegal⟩ := step_legalOutputs (present p s)
  exact ⟨(transact_eq_block p State.reset).trans (transact_eq_block p s).symm, _, hstep, hlegal⟩

end Sys2Proof.Proofs
end
